-- ==== Sys2Proof/Word.lean ====
section
/-! DEFINITION. The value types of the PBE: rows, wire bytes, command words, the frame buffer, glyphs and colours. -/

namespace Sys2Proof

/-- One frame-buffer row, 16 bits unsigned (R20, R12). -/
abbrev Row := BitVec 16

/-- One wire byte of a frame, or one glyph row (R12, R178). -/
abbrev Byte := BitVec 8

/-- The 32-bit command word `CW` (R82). -/
abbrev CommandWord := BitVec 32

/-- The frame buffer `FB[0..7]`: exactly 8 rows (R20). -/
abbrev FrameBuffer := Vector Row 8

/-- A glyph: 8 row values of 8 bits (R178). -/
abbrev Glyph := Vector Byte 8

/-- The parameter `GLYPH`: a partial function from glyph index to glyph (R9, R178). -/
abbrev GlyphTable := Nat → Option Glyph

/-- A member of the open enumeration `BLINK_RATES`, named by a number.
DESIGN CHOICE (log 5): the spec gives the members no names; no device encoding is meant. -/
abbrev BlinkRate := Nat

/-- The four colours, in the order the source lists them (R81, R85). -/
inductive Color where
  | off
  | red
  | yellow
  | green
deriving DecidableEq, Repr

/-- The eight row numbers in ascending order (R20). -/
def rowIndices : List (Fin 8) := [0, 1, 2, 3, 4, 5, 6, 7]

/-- The eight shift amounts of the scroll engine in ascending order (R192). -/
def scrollShifts : List (Fin 8) := [0, 1, 2, 3, 4, 5, 6, 7]

/-- The sixteen wire byte indices of a frame in ascending order (R30, R51). -/
def wireIndices : List (Fin 16) := [0, 1, 2, 3, 4, 5, 6, 7, 8, 9, 10, 11, 12, 13, 14, 15]

end Sys2Proof
end

