-- ==== Sys2Proof/Config.lean ====
section
/-! DEFINITION. What an installation fixes: the parameters of R9 the step relation reads, with no value given, and the values the model names at reset. -/

namespace Sys2Proof

/-- The glyph table `GLYPH` (R9, R178; its contents are in no source, N1). Free: no body. Log 6. -/
opaque Config.glyph : GlyphTable

/-- The members of the enumeration `BLINK_RATES` (R9, R28; N10). Free: no body. Log 5. -/
opaque Config.blinkRates : List BlinkRate

/-- Whether constructing a bus-backed sink on this bus at this address succeeds (R243). Free: no body. Log 14. -/
opaque Config.constructionSucceeds : (bus address : Nat) → Bool

/-- The sink's brightness at reset. DESIGN CHOICE (log 4, unsafe): R33 says it is unspecified. -/
def Config.resetBrightness : Nat := 0

/-- The sink's blink rate at reset. DESIGN CHOICE (log 4, unsafe): R33 says it is unspecified. -/
def Config.resetBlinkRate : BlinkRate := 0

end Sys2Proof
end

