-- ==== Sys2Proof/Syntax.lean ====
section
/-! DEFINITION. The abstract commands of the PBE (30_encoding.md R81): one constructor per row of spec/opcode_table.json. -/

namespace Sys2Proof

/-- The abstract command of R81. `row` and `col` of `setpx` are mathematical integers (D5) and its
colour may be absent; a `wrrow` outside rows 0..7 cannot be expressed (R136, D10). -/
inductive Instr where
  /-- `SETPX row, col, color` (R110). -/
  | setpx (row col : Int) (color : Option Color)
  /-- `WRROW row, value` (R134). -/
  | wrrow (row : Fin 8) (value : Row)
  /-- `CLR flush` (R130). -/
  | clr (flush : Bool)
  /-- `WRDISP` (R150). -/
  | wrdisp
  /-- `GETBUF` (R138). -/
  | getbuf
deriving DecidableEq, Repr

end Sys2Proof
end

