-- ==== Sys2Proof/Decode.lean ====
section
/-! DEFINITION. The command word: the opcode map (R84), the decoder (R89), total on all words and rejecting reserved ones by name (R91), the clamping conversion (R87) and the encoder (R89). -/

namespace Sys2Proof

/-- Why a word is a reserved encoding (R91): its opcode is reserved, or a must-be-zero field of
one of the five opcodes is not zero. -/
inductive Reserved where
  | opcode (op : BitVec 4)
  | mustBeZero (op : BitVec 4)
deriving DecidableEq, Repr

/-- `code` of R89: the 3-bit colour field of a colour; an absent colour is 7 (R85, R87). -/
def colorCode : Option Color → BitVec 3
  | some .off => 0
  | some .red => 1
  | some .yellow => 2
  | some .green => 3
  | none => 7

/-- The colour a 3-bit code names; codes 4 to 7 name none (R85). -/
def colorOfCode (k : BitVec 3) : Option Color :=
  if k = 0 then some .off
  else if k = 1 then some .red
  else if k = 2 then some .yellow
  else if k = 3 then some .green
  else none

/-- `CW[31:28]`, the opcode in every format (R82). -/
def opField (cw : CommandWord) : BitVec 4 := cw.extractLsb' 28 4

/-- Format P: `op` 1, `color`, `row`, `col`, and bits 27 and 23:16 zero (R83, R86). -/
def decodePixel (cw : CommandWord) : Except Reserved Instr :=
  if cw.extractLsb' 27 1 = 0 ∧ cw.extractLsb' 16 8 = 0 then
    .ok (.setpx (cw.extractLsb' 8 8).toInt (cw.extractLsb' 0 8).toInt (colorOfCode (cw.extractLsb' 24 3)))
  else .error (.mustBeZero (opField cw))

/-- Format R: `op` 2, `row`, `value`, and bits 27:19 zero (R83, R88). -/
def decodeRow (cw : CommandWord) : Except Reserved Instr :=
  if cw.extractLsb' 19 9 = 0 then .ok (.wrrow (cw.extractLsb' 16 3).toFin (cw.extractLsb' 0 16))
  else .error (.mustBeZero (opField cw))

/-- Format C: `op` 3, `flush`, and bits 27:1 zero (R83, R88). -/
def decodeClear (cw : CommandWord) : Except Reserved Instr :=
  if cw.extractLsb' 1 27 = 0 then .ok (.clr (cw.getLsbD 0))
  else .error (.mustBeZero (opField cw))

/-- Format N: no operand, bits 27:0 zero (R83). -/
def decodeBare (i : Instr) (cw : CommandWord) : Except Reserved Instr :=
  if cw.extractLsb' 0 28 = 0 then .ok i else .error (.mustBeZero (opField cw))

/-- The decoder of R89. -/
def decode (cw : CommandWord) : Except Reserved Instr :=
  if opField cw = 1 then decodePixel cw
  else if opField cw = 2 then decodeRow cw
  else if opField cw = 3 then decodeClear cw
  else if opField cw = 4 then decodeBare .wrdisp cw
  else if opField cw = 5 then decodeBare .getbuf cw
  else .error (.opcode (opField cw))

/-- `clamp(v) = max(-128, min(127, v))` (R87). -/
def clampCoord (v : Int) : Int := max (-128) (min 127 v)

/-- The host's conversion of an abstract command to one a word can carry (R87). -/
def Instr.clamped : Instr → Instr
  | .setpx row col color => .setpx (clampCoord row) (clampCoord col) color
  | .wrrow row value => .wrrow row value
  | .clr flush => .clr flush
  | .wrdisp => .wrdisp
  | .getbuf => .getbuf

/-- The encoder of R89; an out-of-range coordinate is clamped, never truncated (R87). -/
def encode : Instr → CommandWord
  | .setpx row col color =>
    0x10000000#32 ||| (colorCode color).setWidth 32 <<< 24
      ||| (BitVec.ofInt 8 (clampCoord row)).setWidth 32 <<< 8
      ||| (BitVec.ofInt 8 (clampCoord col)).setWidth 32
  | .wrrow row value =>
    0x20000000#32 ||| (BitVec.ofFin row : BitVec 3).setWidth 32 <<< 16 ||| value.setWidth 32
  | .clr flush => 0x30000000#32 ||| (BitVec.ofBool flush).setWidth 32
  | .wrdisp => 0x40000000#32
  | .getbuf => 0x50000000#32

/-- One row of the opcode map (R84): a word `CW` is the command when `CW & mask = match`. -/
structure OpcodeRow where
  mnemonic : String
  matchBits : CommandWord
  mask : CommandWord
deriving DecidableEq, Repr

/-- The word is one of this row's (R84). -/
def OpcodeRow.matchesWord (r : OpcodeRow) (cw : CommandWord) : Bool := cw &&& r.mask == r.matchBits

/-- The row of the opcode map that holds a command (R84). -/
def Instr.opcodeRow : Instr → OpcodeRow
  | .setpx _ _ _ => ⟨"SETPX", 0x10000000#32, 0xF8FF0000#32⟩
  | .wrrow _ _ => ⟨"WRROW", 0x20000000#32, 0xFFF80000#32⟩
  | .clr _ => ⟨"CLR", 0x30000000#32, 0xFFFFFFFE#32⟩
  | .wrdisp => ⟨"WRDISP", 0x40000000#32, 0xFFFFFFFF#32⟩
  | .getbuf => ⟨"GETBUF", 0x50000000#32, 0xFFFFFFFF#32⟩

/-- The complete opcode map (R84). -/
def opcodeMap : List OpcodeRow :=
  [⟨"SETPX", 0x10000000#32, 0xF8FF0000#32⟩,
   ⟨"WRROW", 0x20000000#32, 0xFFF80000#32⟩,
   ⟨"CLR", 0x30000000#32, 0xFFFFFFFE#32⟩,
   ⟨"WRDISP", 0x40000000#32, 0xFFFFFFFF#32⟩,
   ⟨"GETBUF", 0x50000000#32, 0xFFFFFFFF#32⟩]

/-- The command word whose low `nbits` bits are those of `w`, the bits above zero (log 19). -/
def tableWord (nbits w : Nat) : CommandWord := BitVec.ofNat 32 (w % 2 ^ nbits)

/-- What the decoder reads from a word numbered as spec/opcode_table.json numbers it. -/
def decodeTableWord (nbits w : Nat) : Option Instr :=
  match decode (tableWord nbits w) with
  | .ok i => some i
  | .error _ => none

end Sys2Proof
end

