-- ==== Sys2Proof/Machine/State.lean ====
section
/-! DEFINITION. The state of one PBE with its sink's configuration, and of the host that drives it, as plain data; the reasons a step can stop; the state after reset. -/

namespace Sys2Proof.Machine

/-- One entry of the sink log: the device register offset and the bytes of one `SinkWrite` (R26, R152). -/
structure SinkEntry where
  offset : Nat
  bytes : List Byte
deriving DecidableEq, Repr

/-- The host's pseudo-instructions that expand to commands and holds (R95). A text is its list of
character codes; durations are integers so that a negative one can be written and refused (R198). -/
inductive HostMacro where
  /-- `GLYPH ch` (R182). -/
  | glyph (ch : Nat)
  /-- `TEXT s, d` (R186). -/
  | text (chars : List Nat) (duration : Int)
  /-- `SCROLL s, d` (R192). -/
  | scroll (chars : List Nat) (duration : Int)
deriving DecidableEq, Repr

/-- What the outside world does next to the block (R170, R219, R241, R61). -/
inductive HostStep where
  /-- The host issues one command word (R82, R170). -/
  | issue (cw : CommandWord)
  /-- `Hold(n)` of `n` time units (R176). DESIGN CHOICE (log 23): a negative `n` cannot be written; the
  spec gives a hold no meaning below `Hold(0)`. -/
  | hold (n : Nat)
  /-- The host begins a pseudo-instruction (R95, R170). -/
  | invoke (m : HostMacro)
  /-- `setBrightness(b)` of the sink (R219). -/
  | setBrightness (b : Int)
  /-- `setBlinkRate(rate)` of the sink (R219). -/
  | setBlinkRate (rate : BlinkRate)
  /-- The reset input of a hardware realisation is asserted (R241). -/
  | resetInput
  /-- Two agents issue commands at once without serialising (R61). -/
  | concurrentIssue (a b : CommandWord)
deriving DecidableEq, Repr

/-- The PBE raises no fault: every command with every operand value completes (R210, R212, R216).
So there is no reason to list (log 18). -/
inductive Fault where
deriving DecidableEq, Repr

/-- What the model gives no meaning to. Each is safe: the model stops where the spec says it refuses. -/
inductive Refusal where
  /-- Raised by an arm of `exec` that has no meaning yet; none is left. Safe. -/
  | notModelled (mnemonic : String)
  /-- Raised by `step` on a reserved command word; "a model should *refuse*" (R91, U5). Safe. Log 3. -/
  | reservedWord (why : Reserved)
  /-- Raised by a macro on a character that is not ASCII printable (R179, U1). Safe. Log 7. -/
  | notPrintable (ch : Nat)
  /-- Raised by a macro on a character whose index is outside `GLYPH` (R179, U1, D20). Safe. Log 6. -/
  | glyphUndefined (ch : Nat)
  /-- Raised by `TEXT` and `SCROLL` on a negative duration (R198, U3). Safe. Log 8. -/
  | negativeDuration (d : Int)
  /-- Raised by `setBlinkRate` outside the enumeration (R219, U4). Safe. Log 5. -/
  | blinkRateOutside (rate : BlinkRate)
  /-- Raised when two agents issue unserialised (R61, U9). Safe. Log 13. -/
  | unserialisedIssuers
deriving DecidableEq, Repr

/-- One PBE with its sink's two configuration scalars, and the host's side of the ports.
No PBE command reads any field but `fb` (R23, R26, R28). -/
structure State where
  /-- The frame buffer `FB[0..7]` (R20). -/
  fb : FrameBuffer
  /-- `SinkLog`, oldest entry first (R26). -/
  sinkLog : List SinkEntry
  /-- The host's record of the responses given to `GETBUF`, oldest first (R140, R255). Log 1. -/
  responses : List FrameBuffer
  /-- The host's trace of holds, oldest first (R176, R255). Log 1. -/
  holdTrace : List Nat
  /-- The host's steps not yet performed, next first (R24, R170). Log 2. -/
  pending : List HostStep
  /-- The sink's brightness, 0..15 (R28). -/
  brightness : Nat
  /-- The sink's blink rate (R28). -/
  blinkRate : BlinkRate
deriving DecidableEq, Repr

/-- The machine right after construction (R33, R240): rows zero, sink log empty, no sink write.
The sink's two scalars have no value in the spec and take named ones (log 4). -/
def State.reset : State where
  fb := Vector.replicate 8 0
  sinkLog := []
  responses := []
  holdTrace := []
  pending := []
  brightness := Config.resetBrightness
  blinkRate := Config.resetBlinkRate

end Sys2Proof.Machine
end

