-- ==== Sys2Proof/Machine/Operands.lean ====
section
/-! DEFINITION. The operand forms of the commands: the coordinates of `SETPX` and the plane masks they select. `WRROW`'s row and value, `CLR`'s flush need no conversion (R88). -/

namespace Sys2Proof.Machine

/-- The coordinate a `SETPX` operand names, if it is in 0..7 (R110, R112). -/
def coordinate (v : Int) : Option (Fin 8) :=
  if h : 0 ≤ v ∧ v ≤ 7 then some ⟨v.toNat, by omega⟩ else none

/-- `bit16(n)`: the row with bit `n` alone set, `n` in 0..15 (R11). -/
def bit16 (n : Nat) : Row := 1#16 <<< n

/-- The green-plane bit of column `c`, `1 << c` (R110, R111). -/
def greenMask (c : Fin 8) : Row := bit16 c.val

/-- The red-plane bit of column `c`, `1 << (c + 8)` (R110, R111). -/
def redMask (c : Fin 8) : Row := bit16 (c.val + 8)

end Sys2Proof.Machine
end

