-- ==== Sys2Proof/Machine/Flags.lean ====
section
/-! DEFINITION. The PBE has no flag, condition code, error or busy bit (R25), so no command computes one. What this file holds instead is the reading of a row's bits as pixels: `ColorAt` (R21, R22). -/

namespace Sys2Proof.Machine

/-- The green-plane bit of a row at a column, `v[c]` (R21). -/
def greenLit (v : Row) (c : Fin 8) : Bool := v.getLsbD c.val

/-- The red-plane bit of a row at a column, `v[c+8]` (R21). -/
def redLit (v : Row) (c : Fin 8) : Bool := v.getLsbD (c.val + 8)

/-- `ColorAt(v, c)`: the colour a row value shows at a column (R22). -/
def colorAt (v : Row) (c : Fin 8) : Color :=
  match redLit v c, greenLit v c with
  | false, false => .off
  | false, true => .green
  | true, false => .red
  | true, true => .yellow

end Sys2Proof.Machine
end

