-- ==== Sys2Proof/Machine/Ops.lean ====
section
/-! DEFINITION. The shared operations over the frame buffer, the sink log, the response port and the host's side. There is no exception entry and no return: the PBE has neither (R210, R216, R217). -/

namespace Sys2Proof.Machine

/-! ### Bytes and words -/

/-- `lo8(v) = v[7:0]` (R11). -/
def lo8 (v : Row) : Byte := v.extractLsb' 0 8

/-- `hi8(v) = v[15:8]` (R11). -/
def hi8 (v : Row) : Byte := v.extractLsb' 8 8

/-- `rev8(b)[i] = b[7-i]` (R11). -/
def rev8 (b : Byte) : Byte := b.reverse

/-- `rev32(w)[i] = w[31-i]` (R11). -/
def rev32 (w : BitVec 32) : BitVec 32 := w.reverse

/-- `bswap32(w) = w[7:0], w[15:8], w[23:16], w[31:24]`, most significant first (R11). -/
def bswap32 (w : BitVec 32) : BitVec 32 :=
  (w.extractLsb' 0 8).setWidth 32 <<< 24 ||| (w.extractLsb' 8 8).setWidth 32 <<< 16
    ||| (w.extractLsb' 16 8).setWidth 32 <<< 8 ||| (w.extractLsb' 24 8).setWidth 32

/-- `idiv(d, 8)` for `d >= 0` (R11, R196). -/
def idiv8 (d : Nat) : Nat := d / 8

/-! ### The colour bitplane combiner -/

/-- What a `SETPX` with valid column and colour makes of its row: the plane bits are ORed in, and
OFF clears both (R110, R113). -/
def foldPixel (c : Fin 8) (color : Color) (v : Row) : Row :=
  match color with
  | .green => v ||| greenMask c
  | .red => v ||| redMask c
  | .yellow => v ||| greenMask c ||| redMask c
  | .off => v &&& ~~~ greenMask c &&& ~~~ redMask c

/-! ### The frame buffer -/

/-- The read `FB[r]` (R11). -/
def State.readRow (s : State) (r : Fin 8) : Row := s.fb[r]

/-- The write `FB[r] <- v`; all other rows keep their value (R11). -/
def State.writeRow (s : State) (r : Fin 8) (v : Row) : State := { s with fb := s.fb.set r v }

/-- The buffer of eight zero rows (R130, R240). -/
def zeroBuffer : FrameBuffer := Vector.replicate 8 0

/-- `for i in 0..7: FB[i] <- 0x0000`, in one atomic step (R130, R131). -/
def State.clearRows (s : State) : State := { s with fb := zeroBuffer }

/-! ### The row multiplexer and the flush -/

/-- `Mux(FB, k)`: wire byte `k`, the low half of row `k >> 1` when `k` is even and the high half
when it is odd (R151, R153). -/
def mux (fb : FrameBuffer) (k : Fin 16) : Byte :=
  let row := fb[k.val / 2]
  if k.val % 2 = 0 then lo8 row else hi8 row

/-- `Frame(FB)`: the 16 wire bytes, byte 0 first (R153). -/
def frame (fb : FrameBuffer) : List Byte := wireIndices.map (mux fb)

/-- The buffer a 16-byte frame came from: `FB[i] = B[2i] | (B[2i+1] << 8)` (R154). -/
def unframe (b : List Byte) : FrameBuffer :=
  Vector.ofFn fun i : Fin 8 =>
    (b.getD (2 * i.val) 0).setWidth 16 ||| (b.getD (2 * i.val + 1) 0).setWidth 16 <<< 8

/-- `SINK_OFFSET`: frames start at device register offset 0 (R7, R58). -/
def sinkOffset : Nat := 0

/-- `SinkWrite(off, B)` appends one entry to the sink log; nothing comes back (R152, R66). -/
def State.sinkWrite (s : State) (off : Nat) (b : List Byte) : State :=
  { s with sinkLog := s.sinkLog ++ [⟨off, b⟩] }

/-- `Flush()`: one sink write of the current buffer (R151, R56). -/
def State.flush (s : State) : State := s.sinkWrite sinkOffset (frame s.fb)

/-! ### The response port -/

/-- `Respond([FB[0], ..., FB[7]])`: the snapshot goes to the host, which records it (R138, R139; log 1). -/
def State.respond (s : State) : State := { s with responses := s.responses ++ [s.fb] }

/-- The 128-bit value `RSP` of a response, row `i` in bits `16i+15:16i` (R140). -/
def responseWord (v : FrameBuffer) : BitVec 128 :=
  rowIndices.foldr (fun (i : Fin 8) (acc : BitVec 128) => acc ||| (v[i].setWidth 128 <<< (16 * i.val))) 0#128

/-! ### The host's side -/

/-- `Hold(n)` records `n` in the host's trace and changes nothing else (R176; log 10). -/
def State.recordHold (s : State) (n : Nat) : State := { s with holdTrace := s.holdTrace ++ [n] }

/-- The nominal duration of a hold of `n` time units, for a `TIME_UNIT` given as an argument: a duration in
any additive monoid (R9, R176, D19). It bounds the elapsed time neither below nor above (log 10, 21). -/
def nominalDuration {τ : Type} [AddMonoid τ] (timeUnit : τ) (n : Nat) : τ := n • timeUnit

/-- The nominal time of all holds of the host's trace, for a `TIME_UNIT` given as an argument (R9, R256). -/
def State.nominalWait {τ : Type} [AddMonoid τ] (timeUnit : τ) (s : State) : τ :=
  (s.holdTrace.map (nominalDuration timeUnit)).sum

/-- The host has `l` left to do. -/
def State.withPending (s : State) (l : List HostStep) : State := { s with pending := l }

end Sys2Proof.Machine
end

