-- ==== Sys2Proof/Machine/Buffer.lean ====
section
/-! DEFINITION. The buffer family: `CLR`, `WRROW`, `GETBUF` (41_buffer_ops.md). -/

namespace Sys2Proof.Machine

/-- `CLR flush` (R130): zero all rows, then, when `flush = 1`, flush the zeroed buffer. -/
def execClr (flush : Bool) (s : State) : Host.Outcome State Fault Refusal :=
  .next (if flush then s.clearRows.flush else s.clearRows)

/-- `WRROW row, value` (R134): assigns the whole row; it does not OR (R135). -/
def execWrrow (row : Fin 8) (value : Row) (s : State) : Host.Outcome State Fault Refusal :=
  .next (s.writeRow row value)

/-- `GETBUF` (R138): responds with a snapshot of all rows and changes nothing of the PBE. -/
def execGetbuf (s : State) : Host.Outcome State Fault Refusal := .next s.respond

end Sys2Proof.Machine
end

