-- ==== Sys2Proof/Machine/Flush.lean ====
section
/-! DEFINITION. The flush family: `WRDISP` (42_flush_ops.md). -/

namespace Sys2Proof.Machine

/-- `WRDISP` (R150): one flush of the current buffer; no row changes. -/
def execWrdisp (s : State) : Host.Outcome State Fault Refusal := .next s.flush

end Sys2Proof.Machine
end

