-- ==== Sys2Proof/Machine/Pixel.lean ====
section
/-! DEFINITION. The pixel family: `SETPX`, the colour bitplane combiner (40_pixel_ops.md). -/

namespace Sys2Proof.Machine

/-- `SETPX row, col, color` (R110): with valid operands one row is folded; with a coordinate
outside 0..7 or an absent colour it is a no-op with meaning (R112). -/
def execSetpx (row col : Int) (color : Option Color) (s : State) : Host.Outcome State Fault Refusal :=
  match coordinate row, coordinate col, color with
  | some r, some c, some k => .next (s.writeRow r (foldPixel c k (s.readRow r)))
  | _, _, _ => .next s

end Sys2Proof.Machine
end

