-- ==== Sys2Proof/Machine/Dispatch.lean ====
section
/-! DEFINITION. One arm per command: which meaning `exec` calls. -/

namespace Sys2Proof.Machine

def exec (i : Instr) (s : State) : Host.Outcome State Fault Refusal :=
  match i with
  | .setpx row col color => Sys2Proof.Machine.execSetpx row col color s
  | .wrrow row value => Sys2Proof.Machine.execWrrow row value s
  | .clr flush => Sys2Proof.Machine.execClr flush s
  | .wrdisp => Sys2Proof.Machine.execWrdisp s
  | .getbuf => Sys2Proof.Machine.execGetbuf s

end Sys2Proof.Machine
end

