-- ==== Sys2Proof/Machine/HostMacros.lean ====
section
/-! DEFINITION. The host's pseudo-instructions as the straight-line lists of steps they expand to (45_host_macros.md, R171), over any glyph table. -/

namespace Sys2Proof.Machine

/-! ### The glyph fix-up and the scroll window -/

/-- `Fix(v) = bswap32(rev32(zext_32(v))) & 0xFF` (R180). -/
def fix (v : Byte) : Byte := (bswap32 (rev32 (v.setWidth 32)) &&& 0xFF#32).setWidth 8

/-- `Win(cur, nxt, col) = ((cur >>> col) | (nxt << (8 - col))) & 0xFF`, at 32 bits (R190). -/
def win (cur nxt : Byte) (col : Fin 8) : BitVec 32 :=
  (cur.setWidth 32 >>> col.val ||| nxt.setWidth 32 <<< (8 - col.val)) &&& 0xFF#32

/-! ### Glyph lookup -/

/-- `GLYPH_OFFSET`: a character's glyph index is its code minus 31 (R7, R178). -/
def glyphOffset : Nat := 31

/-- ASCII printable, codes 32 to 126. PRESUMED (log 7): the spec marks the range K1, general knowledge (R179). -/
def printable (ch : Nat) : Bool := decide (32 ≤ ch ∧ ch ≤ 126)

/-- The glyph of a character, or the refusal of R179. -/
def glyphOf (table : GlyphTable) (ch : Nat) : Except Refusal Glyph :=
  if printable ch then
    match table (ch - glyphOffset) with
    | some g => .ok g
    | none => .error (.glyphUndefined ch)
  else .error (.notPrintable ch)

/-- The glyphs of a text in order, or the refusal of its first bad character (R179). -/
def glyphsOf (table : GlyphTable) : List Nat → Except Refusal (List Glyph)
  | [] => .ok []
  | ch :: rest =>
    match glyphOf table ch, glyphsOf table rest with
    | .ok g, .ok gs => .ok (g :: gs)
    | .error e, _ => .error e
    | .ok _, .error e => .error e

/-! ### The expansions -/

/-- The host issues a command: it converts it to its command word (R87). -/
def HostStep.command (i : Instr) : HostStep := .issue (encode i)

/-- `GLYPH ch`: 8 `WRROW` in row order 0 to 7 and no flush (R182); the green plane only (R183). -/
def glyphSteps (g : Glyph) : List HostStep :=
  rowIndices.map fun r => .command (.wrrow r ((fix g[r]).setWidth 16))

/-- `BLANK_HOLD`: the hold after the blank flash (R7, R186). -/
def blankHold : Nat := 50

/-- One cycle of `TEXT` (R186). -/
def textCycle (d : Nat) (g : Glyph) : List HostStep :=
  [.command (.clr false)] ++ glyphSteps g
    ++ [.command .wrdisp, .hold d, .command (.clr true), .hold blankHold]

/-- `TEXT s, d`: one cycle per character; no step at all for the empty text (R186, R188). -/
def textSteps (gs : List Glyph) (d : Nat) : List HostStep := gs.flatMap (textCycle d)

/-- One row of one step of `SCROLL`: store the window and flush at once (R192, R194). -/
def scrollRow (a b : Glyph) (col r : Fin 8) : List HostStep :=
  [.command (.wrrow r ((win (fix a[r]) (fix b[r]) col).setWidth 16)), .command .wrdisp]

/-- One sub-column step of `SCROLL`: the eight rows, then one hold (R192, R196). -/
def scrollStep (a b : Glyph) (d : Nat) (col : Fin 8) : List HostStep :=
  rowIndices.flatMap (scrollRow a b col) ++ [.hold (idiv8 d)]

/-- One adjacent pair of `SCROLL` (R192). -/
def scrollPair (a b : Glyph) (d : Nat) : List HostStep := scrollShifts.flatMap (scrollStep a b d)

/-- Every adjacent pair of the padded text, in order (R192). -/
def scrollPairs (d : Nat) : List Glyph → List HostStep
  | [] => []
  | [_] => []
  | a :: b :: rest => scrollPair a b d ++ scrollPairs d (b :: rest)

/-- `SCROLL` over the glyphs of the padded text: the pairs, then `CLR 0`, not flushed (R192, R193). -/
def scrollSteps (padded : List Glyph) (d : Nat) : List HostStep :=
  scrollPairs d padded ++ [.command (.clr false)]

/-- The space character's code (R178). -/
def spaceCode : Nat := 32

/-- `" " ++ s ++ " "` (R192). -/
def padText (chars : List Nat) : List Nat := [spaceCode] ++ chars ++ [spaceCode]

/-- The straight-line expansion of a pseudo-instruction, or its refusal as a whole (R171, R179,
R198; log 8: a negative duration is reported before a bad character). -/
def HostMacro.expand (table : GlyphTable) : HostMacro → Except Refusal (List HostStep)
  | .glyph ch =>
    match glyphOf table ch with
    | .ok g => .ok (glyphSteps g)
    | .error e => .error e
  | .text chars d =>
    if d < 0 then .error (.negativeDuration d) else
    match glyphsOf table chars with
    | .ok gs => .ok (textSteps gs d.toNat)
    | .error e => .error e
  | .scroll chars d =>
    if d < 0 then .error (.negativeDuration d) else
    match glyphsOf table (padText chars) with
    | .ok gs => .ok (scrollSteps gs d.toNat)
    | .error e => .error e

/-- `writeString(text, durationPerChar, scroll)` (R200). -/
def writeString (chars : List Nat) (d : Int) (scroll : Bool) : HostMacro :=
  if scroll then .scroll chars d else .text chars d

end Sys2Proof.Machine
end

