-- ==== Sys2Proof/Machine/Sink.lean ====
section
/-! DEFINITION. The Display Sink as far as the spec gives it (R218 to R220): its two configuration scalars, and the image its device shows as a function of the sink log and of a free environment. -/

namespace Sys2Proof.Machine

/-- A brightness request clamped to 0..15 (R28, R219). -/
def clampBrightness (b : Int) : Nat := (max 0 (min 15 b)).toNat

/-- `setBrightness(b)`: the stored brightness is `b` clamped; nothing else changes (R219). -/
def performSetBrightness (b : Int) (s : State) : Host.Outcome State Fault Refusal :=
  .next { s with brightness := clampBrightness b }

/-- `setBlinkRate(rate)`: a member of the enumeration is stored; another value is refused (R219, U4). -/
def performSetBlinkRate (rates : List BlinkRate) (rate : BlinkRate) (s : State) :
    Host.Outcome State Fault Refusal :=
  if rate ∈ rates then .next { s with blinkRate := rate } else .refused (.blinkRateOutside rate)

/-- What the block never sees of the device, under no law (R156, R33; log 11). A claim about the
display holds for every environment. -/
structure SinkEnvironment where
  /-- `SinkDelivers(n)`: whether the `n`-th sink write, from 0, reached the device. -/
  delivers : Nat → Bool
  /-- What the device shows after the `n`-th sink write when it was not delivered (U6). -/
  undelivered : Nat → List Byte
  /-- What the device shows before the first sink write (U7). -/
  initial : List Byte

/-- The image the device shows, given the sink log (R27, R156). -/
def deviceImage (env : SinkEnvironment) (log : List SinkEntry) : List Byte :=
  match log.getLast? with
  | none => env.initial
  | some e => if env.delivers (log.length - 1) then e.bytes else env.undelivered (log.length - 1)

end Sys2Proof.Machine
end

