-- ==== Sys2Proof/Machine/HostSteps.lean ====
section
/-! DEFINITION. What one host step does: a command word is decoded and executed; a hold, a pseudo-instruction, a sink operation, a reset input and a clash of two issuers have the effects the spec gives them. -/

namespace Sys2Proof.Machine

/-- The host issues a command word: the PBE executes what it decodes to; a reserved word is refused (R89, R91). -/
def performIssue (cw : CommandWord) (s : State) : Host.Outcome State Fault Refusal :=
  match decode cw with
  | .ok i => exec i s
  | .error e => .refused (.reservedWord e)

/-- `Hold(n)`, whether the wait elapses or is interrupted (R176, R211 class (d); log 10). -/
def performHold (n : Nat) (s : State) : Host.Outcome State Fault Refusal := .next (s.recordHold n)

/-- The host begins a pseudo-instruction: its expansion goes before what it has left to do (R170, R171; log 9). -/
def performInvoke (table : GlyphTable) (m : HostMacro) (s : State) : Host.Outcome State Fault Refusal :=
  match m.expand table with
  | .ok steps => .next (s.withPending (steps ++ s.pending))
  | .error e => .refused e

/-- The reset input of a hardware realisation: the PBE is in the state of R240; the host and the
sink keep theirs (R241; log 12). -/
def performReset (s : State) : Host.Outcome State Fault Refusal :=
  .next { s with fb := zeroBuffer, sinkLog := [] }

/-- Two unserialised issuers have no meaning (R61, U9; log 13). -/
def performConcurrent (_a _b : CommandWord) (_s : State) : Host.Outcome State Fault Refusal :=
  .refused .unserialisedIssuers

/-- One host step, over any glyph table and blink-rate enumeration. -/
def performHostStep (table : GlyphTable) (rates : List BlinkRate) (h : HostStep) (s : State) :
    Host.Outcome State Fault Refusal :=
  match h with
  | .issue cw => performIssue cw s
  | .hold n => performHold n s
  | .invoke m => performInvoke table m s
  | .setBrightness b => performSetBrightness b s
  | .setBlinkRate rate => performSetBlinkRate rates rate s
  | .resetInput => performReset s
  | .concurrentIssue a b => performConcurrent a b s

/-- The host performs its next step; with none left the PBE waits (R242; log 2). -/
def stepWith (table : GlyphTable) (rates : List BlinkRate) (s : State) : Host.Outcome State Fault Refusal :=
  match s.pending with
  | [] => .next s
  | h :: rest => performHostStep table rates h (s.withPending rest)

end Sys2Proof.Machine
end

