-- ==== Sys2Proof/Machine/Step.lean ====
section
/-! DEFINITION. One step of the machine, and how an instruction is placed where the next step takes it. -/

namespace Sys2Proof.Machine

/-- One step: the host performs the next thing it has to do (R60, R170). -/
def step (s : State) : Host.Outcome State Fault Refusal := stepWith Config.glyph Config.blinkRates s

/-- The state whose next host step issues this command word, then goes on as before (log 2, 19). -/
def State.withFetchWord (s : State) (nbits w : Nat) : State :=
  s.withPending (.issue (tableWord nbits w) :: s.pending)

end Sys2Proof.Machine
end

