-- ==== Sys2Proof/Machine/Assembly.lean ====
section
/-! DEFINITION. The assembly notation of R94 and the pseudo-instructions of R95, over lines already cut into tokens (log 20). -/

namespace Sys2Proof.Machine

/-- One token of an assembly line: a word, a number, or a quoted text's character codes. -/
inductive AsmToken where
  | word (w : String)
  | num (n : Int)
  | text (chars : List Nat)
deriving DecidableEq, Repr

/-- The colour words of R94; `none` is the absent colour. -/
def colorWord : Option Color → String
  | some .off => "off"
  | some .red => "red"
  | some .yellow => "yellow"
  | some .green => "green"
  | none => "none"

/-- The colour a word of R94 names. -/
def colorOfWord (w : String) : Option (Option Color) :=
  if w = "off" then some (some .off)
  else if w = "red" then some (some .red)
  else if w = "yellow" then some (some .yellow)
  else if w = "green" then some (some .green)
  else if w = "none" then some none
  else none

/-- A command written in the notation of R94. -/
def printCommand : Instr → List AsmToken
  | .setpx row col color => [.word "setpx", .num row, .num col, .word (colorWord color)]
  | .wrrow row value => [.word "wrrow", .num row.val, .num value.toNat]
  | .clr flush => [.word "clr", .num (if flush then 1 else 0)]
  | .wrdisp => [.word "wrdisp"]
  | .getbuf => [.word "getbuf"]

/-- `wrrow <row>, <value>`, row 0..7 and value 0..0xFFFF (R94). -/
def parseWrrow (row value : Int) : Option Instr :=
  match coordinate row with
  | some r => if 0 ≤ value ∧ value ≤ 0xFFFF then some (.wrrow r (BitVec.ofInt 16 value)) else none
  | none => none

/-- `clr <flush>`, 0 or 1 (R94). -/
def parseClr (f : Int) : Option Instr :=
  if f = 0 then some (.clr false) else if f = 1 then some (.clr true) else none

/-- The command a line of R94 stands for, if it is one. -/
def parseCommand : List AsmToken → Option Instr
  | [.word w] => if w = "wrdisp" then some .wrdisp else if w = "getbuf" then some .getbuf else none
  | [.word w, .num f] => if w = "clr" then parseClr f else none
  | [.word w, .num row, .num value] => if w = "wrrow" then parseWrrow row value else none
  | [.word w, .num row, .num col, .word k] =>
    if w = "setpx" then (colorOfWord k).map (Instr.setpx row col) else none
  | _ => none

/-- The pseudo-instruction a line of R95 stands for, if it is one. DESIGN CHOICE (log 23): `hold` with a
negative operand stands for nothing, since R176 gives no meaning below `Hold(0)`; nor does `glyph` with a
negative code, which R179 gives no meaning. -/
def parsePseudo : List AsmToken → Option HostStep
  | [.word w, .num n] =>
    if w = "hold" then (if 0 ≤ n then some (.hold n.toNat) else none)
    else if w = "glyph" then (if 0 ≤ n then some (.invoke (.glyph n.toNat)) else none)
    else none
  | [.word w, .text chars, .num d] =>
    if w = "text" then some (.invoke (.text chars d))
    else if w = "scroll" then some (.invoke (.scroll chars d))
    else none
  | _ => none

/-- The host step a line of R94 or R95 stands for; a command is converted to its word (R87). -/
def assemble (line : List AsmToken) : Option HostStep :=
  match parseCommand line with
  | some i => some (.command i)
  | none => parsePseudo line

end Sys2Proof.Machine
end

