-- ==== Sys2Proof/Machine/Instances.lean ====
section
/-! DEFINITION. Construction of an instance with its sink, and several instances side by side (R32, R226, R243, R244, R254). -/

namespace Sys2Proof.Machine

/-- Which sink was attached at construction, constant for the instance's life (R220, R244). -/
inductive SinkVariant where
  /-- The bus-backed sink, with its bus identifier and address `I2C_ADDR` (R157). -/
  | busBacked (bus address : Nat)
  /-- The console-printing fallback. -/
  | console
deriving DecidableEq, Repr

/-- One instance: its own buffer, sink log and sink (R32, R226). -/
structure Instance where
  sink : SinkVariant
  state : State
deriving DecidableEq, Repr

/-- `createMatrix(busIdentifier, address)` given whether the bus-backed construction succeeds: always
an instance in the reset state, with the fallback sink on any failure (R243, R211 class (a)). -/
def construct (succeeds : Bool) (bus address : Nat) : Instance :=
  { sink := if succeeds then .busBacked bus address else .console, state := .reset }

/-- `createMatrix(busIdentifier, address)` (R243; log 14). -/
def createMatrix (bus address : Nat) : Instance :=
  construct (Config.constructionSucceeds bus address) bus address

/-- What an instance's device shows; the console fallback has no device (R220, R27). -/
def Instance.deviceImage (env : SinkEnvironment) (m : Instance) : Option (List Byte) :=
  match m.sink with
  | .busBacked _ _ => some (Machine.deviceImage env m.state.sinkLog)
  | .console => none

/-- One instance makes a step; its sink stays attached (R244). -/
def Instance.step (m : Instance) : Host.Outcome Instance Fault Refusal :=
  match Machine.step m.state with
  | .next t => .next { m with state := t }
  | .fault f => .fault f
  | .refused r => .refused r

/-- Several instances, one per matrix (R226). -/
abbrev System := List Instance

/-- Instance `k` of a system makes a step (R226). -/
def System.stepAt (sys : System) (k : Fin sys.length) : Host.Outcome System Fault Refusal :=
  match (sys.get k).step with
  | .next m => .next (sys.set k.val m)
  | .fault f => .fault f
  | .refused r => .refused r

end Sys2Proof.Machine
end

