-- ==== Sys2Proof/Safety.lean ====
section
/-! DEFINITION. What a safe run is: the host steps the spec gives a meaning to, how many steps a run takes, and the invariant the machine keeps. -/

namespace Sys2Proof.Machine

/-- The spec gives this host step a meaning, over this glyph table and enumeration (R213). -/
def HostStep.admissible (table : GlyphTable) (rates : List BlinkRate) : HostStep → Bool
  | .issue cw => (decode cw).isOk
  | .hold _ => true
  | .invoke m => (m.expand table).isOk
  | .setBrightness _ => true
  | .setBlinkRate rate => decide (rate ∈ rates)
  | .resetInput => true
  | .concurrentIssue _ _ => false

/-- How many machine steps a host step takes: one, and for a pseudo-instruction one for each step
of its expansion as well (R170, R171). -/
def HostStep.cost (table : GlyphTable) : HostStep → Nat
  | .invoke m =>
    match m.expand table with
    | .ok steps => steps.length + 1
    | .error _ => 1
  | _ => 1

/-- How many machine steps a list of host steps takes (R255). -/
def runLength (table : GlyphTable) (l : List HostStep) : Nat := (l.map (HostStep.cost table)).sum

/-- A sink-log entry the block can have made: offset 0 and exactly 16 bytes (R152, R56). -/
def SinkEntry.wellFormed (e : SinkEntry) : Bool := e.offset == 0 && e.bytes.length == 16

/-- The invariant of the machine: every entry of the sink log is a whole frame at offset 0 (R152),
and the sink's brightness is in 0..15 (R28). -/
def State.inv (s : State) : Bool := s.sinkLog.all SinkEntry.wellFormed && decide (s.brightness ≤ 15)

/-- The commands of a list, one after the other, stopping at the first that does not answer next. -/
def execAll : List Instr → State → Host.Outcome State Fault Refusal
  | [], s => .next s
  | i :: rest, s =>
    match exec i s with
    | .next t => execAll rest t
    | .fault f => .fault f
    | .refused r => .refused r

/-- `k` steps over any glyph table and enumeration, stopping at the first that does not answer next. -/
def runWith (table : GlyphTable) (rates : List BlinkRate) : Nat → State → Host.Outcome State Fault Refusal
  | 0, s => .next s
  | k + 1, s =>
    match stepWith table rates s with
    | .next t => runWith table rates k t
    | .fault f => .fault f
    | .refused r => .refused r

end Sys2Proof.Machine
end

