-- ==== Sys2Proof/WellFormed.lean ====
section
/-! DEFINITION. Which abstract commands a command word can carry as they stand. -/

namespace Sys2Proof

/-- A coordinate that fits the 8-bit two's complement field of format P (R86). -/
def coordFits (v : Int) : Bool := decide (-128 ≤ v ∧ v ≤ 127)

/-- The command is its own image under the conversion of R87: its coordinates need no clamping.
The other operands fit their fields by their types (R88). -/
def Instr.wf : Instr → Bool
  | .setpx row col _ => coordFits row && coordFits col
  | .wrrow _ _ => true
  | .clr _ => true
  | .wrdisp => true
  | .getbuf => true

end Sys2Proof
end

