-- ==== Sys2Proof/Certificates/Slice0/Obligations.lean ====
section
/-! DEFINITION. The statements for the provers, each from a numbered rule of spec/. The functions under `Sys2Proof.Spec` are the rules' own tables and formulas, written without the model's meanings. -/

namespace Sys2Proof.Spec

open Sys2Proof.Machine

/-- R113's transition table: the colour a pixel shows after a `SETPX`, from the one it showed. -/
def afterColor (old : Color) : Option Color → Color
  | none => old
  | some .off => .off
  | some .yellow => .yellow
  | some .red =>
    match old with
    | .off => .red
    | .red => .red
    | .yellow => .yellow
    | .green => .yellow
  | some .green =>
    match old with
    | .off => .green
    | .red => .yellow
    | .yellow => .yellow
    | .green => .green

/-- R110: the row value `SETPX` leaves, from the one it found. -/
def foldedRow (c : Fin 8) (v : Row) : Color → Row
  | .green => v ||| 1#16 <<< c.val
  | .red => v ||| 1#16 <<< (c.val + 8)
  | .yellow => v ||| 1#16 <<< c.val ||| 1#16 <<< (c.val + 8)
  | .off => v &&& ~~~ (1#16 <<< c.val) &&& ~~~ (1#16 <<< (c.val + 8))

/-- R151, R51: the sixteen bytes of a flush, low then high byte per row, rows ascending. -/
def frameBytes (fb : FrameBuffer) : List Byte :=
  [fb[0].extractLsb' 0 8, fb[0].extractLsb' 8 8, fb[1].extractLsb' 0 8, fb[1].extractLsb' 8 8,
   fb[2].extractLsb' 0 8, fb[2].extractLsb' 8 8, fb[3].extractLsb' 0 8, fb[3].extractLsb' 8 8,
   fb[4].extractLsb' 0 8, fb[4].extractLsb' 8 8, fb[5].extractLsb' 0 8, fb[5].extractLsb' 8 8,
   fb[6].extractLsb' 0 8, fb[6].extractLsb' 8 8, fb[7].extractLsb' 0 8, fb[7].extractLsb' 8 8]

/-- Sixteen zero bytes (R130). -/
def zeroFrame : List Byte := List.replicate 16 0

/-- R155: how many sink writes a command performs. -/
def sinkWrites : Instr → Nat
  | .setpx _ _ _ => 0
  | .wrrow _ _ => 0
  | .clr flush => if flush then 1 else 0
  | .wrdisp => 1
  | .getbuf => 0

/-- R179: the glyph a table gives a character that meets the precondition. -/
def glyphIs (table : GlyphTable) (ch : Nat) (g : Glyph) : Prop :=
  32 ≤ ch ∧ ch ≤ 126 ∧ table (ch - 31) = some g

/-- R182: the buffer a glyph's fixed-up rows make, each in the green plane (R183). -/
def glyphBuffer (g : Glyph) : FrameBuffer := Vector.ofFn fun r : Fin 8 => (g[r].reverse).setWidth 16

/-- R190: row `q` of the window of step `t` of a scroll over the glyphs `gs` of the padded text;
step `t` is pair `t / 8` at shift `t % 8`. -/
def scrollWindow (gs : List Glyph) (t : Nat) (q : Fin 8) : Row :=
  let blank : Glyph := Vector.replicate 8 0
  let cur := ((gs.getD (t / 8) blank)[q].reverse).setWidth 16
  let nxt := ((gs.getD (t / 8 + 1) blank)[q].reverse).setWidth 16
  (cur >>> (t % 8) ||| nxt <<< (8 - t % 8)) &&& 0xFF#16

/-- R186: the steps of one cycle of `TEXT`, in order. -/
def textCycleSteps (d : Nat) (g : Glyph) : List HostStep :=
  [.issue (encode (.clr false))]
  ++ ([0, 1, 2, 3, 4, 5, 6, 7] : List (Fin 8)).map
      (fun r => .issue (encode (.wrrow r ((g[r].reverse).setWidth 16))))
  ++ [.issue (encode .wrdisp), .hold d, .issue (encode (.clr true)), .hold 50]

/-- R192: the steps of `SCROLL` over the `n + 1` pairs of a padded text of `n + 2` glyphs, in order. -/
def scrollAllSteps (gs : List Glyph) (n d : Nat) : List HostStep :=
  ((List.range (8 * (n + 1))).flatMap fun t =>
    ([0, 1, 2, 3, 4, 5, 6, 7] : List (Fin 8)).flatMap
      (fun r => [.issue (encode (.wrrow r (scrollWindow gs t r))), .issue (encode .wrdisp)])
    ++ [.hold (d / 8)])
  ++ [.issue (encode (.clr false))]

/-- R194: the buffer at flush `m` of a scroll that starts from `start`: rows up to `m % 8` hold the
window of step `m / 8`, the later ones what the step before left. -/
def scrollBuffer (start : FrameBuffer) (gs : List Glyph) (m : Nat) : FrameBuffer :=
  Vector.ofFn fun q : Fin 8 =>
    if q.val ≤ m % 8 then scrollWindow gs (m / 8) q
    else if m / 8 = 0 then start[q]
    else scrollWindow gs (m / 8 - 1) q

end Sys2Proof.Spec

open Sys2Proof Sys2Proof.Machine Sys2Proof.Spec

/-! ### Reset, decoding and the step -/

/-- R240: after reset every row is zero and the sink log is empty: reset performs no sink write. -/
def Obligations.ResetIsZeroBufferAndEmptyLog : Prop :=
  (∀ r : Fin 8, State.reset.fb[r] = 0x0000#16) ∧ State.reset.sinkLog = []

/-- The invariant holds at reset. The model's choice: the brightness at reset is log 4's. -/
def Obligations.InvariantHoldsAtReset : Prop := State.reset.inv = true

/-- R90: the worked encodings. -/
def Obligations.WorkedEncodingsAgree : Prop :=
  encode (.setpx 2 5 (some .green)) = 0x13000205#32
  ∧ encode (.setpx 0 0 (some .off)) = 0x10000000#32
  ∧ encode (.setpx 7 7 (some .yellow)) = 0x12000707#32
  ∧ encode (.setpx (-1) 3 (some .red)) = 0x1100FF03#32
  ∧ encode (.setpx 3 8 (some .red)) = 0x11000308#32
  ∧ encode (.setpx 300 0 (some .red)) = 0x11007F00#32
  ∧ encode (.setpx 1 1 none) = 0x17000101#32
  ∧ encode (.wrrow 4 0x00A5#16) = 0x200400A5#32
  ∧ encode (.wrrow 7 0xFFFF#16) = 0x2007FFFF#32
  ∧ encode (.clr false) = 0x30000000#32
  ∧ encode (.clr true) = 0x30000001#32
  ∧ encode .wrdisp = 0x40000000#32
  ∧ encode .getbuf = 0x50000000#32

/-- 95_test_vectors.md 2.7: words written out from the formats, and what they decode to. -/
def Obligations.WrittenOutWordsDecode : Prop :=
  decode 0x14000000#32 = .ok (.setpx 0 0 none)
  ∧ decode 0x1300807F#32 = .ok (.setpx (-128) 127 (some .green))
  ∧ decode 0x2000FFFF#32 = .ok (.wrrow 0 0xFFFF#16)
  ∧ decode 0x20070000#32 = .ok (.wrrow 7 0x0000#16)
  ∧ decode 0x30000001#32 = .ok (.clr true)
  ∧ decode 0x40000000#32 = .ok .wrdisp
  ∧ decode 0x50000000#32 = .ok .getbuf
  ∧ (∀ cw ∈ ([0x00000000#32, 0x60000000#32, 0xFFFFFFFF#32, 0x18000000#32, 0x1F000000#32, 0x10010000#32,
      0x17FF0000#32, 0x20080000#32, 0x30000002#32, 0x40000001#32, 0x50000100#32] : List CommandWord),
      (decode cw).isOk = false)

/-- A step whose next thing to do is a command word runs what the word decodes to, in the state in
which that word has been taken (R60, R89); a word that is placed is the one that runs (log 2). -/
def Obligations.StepRunsDecodedCommand : Prop :=
  (∀ (s : State) (cw : CommandWord) (i : Instr) (rest : List HostStep),
    s.pending = .issue cw :: rest → decode cw = .ok i → step s = exec i { s with pending := rest })
  ∧ ∀ (s : State) (cw : CommandWord) (i : Instr),
    decode cw = .ok i → step (s.withFetchWord 32 cw.toNat) = exec i s

/-- R91: a model refuses a reserved word. A stop, cited. -/
def Obligations.StepRefusesReservedWord : Prop :=
  ∀ (s : State) (cw : CommandWord) (e : Reserved) (rest : List HostStep),
    s.pending = .issue cw :: rest → decode cw = .error e → step s = .refused (.reservedWord e)

/-- R242: with nothing issued the PBE waits. The model's choice: a waiting step changes nothing (log 2). -/
def Obligations.EmptyPortWaits : Prop := ∀ s : State, s.pending = [] → step s = .next s

/-- A run of the host's core is a run over the installation's glyph table and enumeration. -/
def Obligations.CoreRunIsRunOverParameters : Prop :=
  ∀ (k : Nat) (s : State), Host.Core.run core k s = runWith Config.glyph Config.blinkRates k s

/-! ### The command word -/

/-- R84: a word is a command exactly when `CW & mask = match` for the command's row of the map. -/
def Obligations.OpcodeMapDecidesTheCommand : Prop :=
  ∀ cw : CommandWord,
    ((∃ r c k, decode cw = .ok (.setpx r c k)) ↔ cw &&& 0xF8FF0000#32 = 0x10000000#32)
    ∧ ((∃ r v, decode cw = .ok (.wrrow r v)) ↔ cw &&& 0xFFF80000#32 = 0x20000000#32)
    ∧ ((∃ f, decode cw = .ok (.clr f)) ↔ cw &&& 0xFFFFFFFE#32 = 0x30000000#32)
    ∧ (decode cw = .ok .wrdisp ↔ cw &&& 0xFFFFFFFF#32 = 0x40000000#32)
    ∧ (decode cw = .ok .getbuf ↔ cw &&& 0xFFFFFFFF#32 = 0x50000000#32)

/-- R85, R86: the colour code and the two's complement coordinates of format P. -/
def Obligations.PixelFieldsDecode : Prop :=
  ∀ (k : BitVec 3) (r c : Byte),
    ∃ color : Option Color,
      decode (0x10000000#32 ||| k.setWidth 32 <<< 24 ||| r.setWidth 32 <<< 8 ||| c.setWidth 32)
        = .ok (.setpx r.toInt c.toInt color)
      ∧ (k = 0 → color = some .off) ∧ (k = 1 → color = some .red) ∧ (k = 2 → color = some .yellow)
      ∧ (k = 3 → color = some .green) ∧ (4 ≤ k.toNat → color = none)

/-- R88: the operands of formats R and C are taken as they stand; format N has none. -/
def Obligations.RowAndClearFieldsDecode : Prop :=
  (∀ (r : BitVec 3) (v : Row),
    decode (0x20000000#32 ||| r.setWidth 32 <<< 16 ||| v.setWidth 32) = .ok (.wrrow r.toFin v))
  ∧ (∀ f : BitVec 1, decode (0x30000000#32 ||| f.setWidth 32) = .ok (.clr (f == 1#1)))
  ∧ decode 0x40000000#32 = .ok .wrdisp ∧ decode 0x50000000#32 = .ok .getbuf

/-- R89: decoding an encoded command gives back the command with its coordinates clamped, and a
command that needs no clamping exactly. -/
def Obligations.DecodeOfEncodeIsTheCommand : Prop :=
  (∀ i : Instr, decode (encode i) = .ok i.clamped) ∧ ∀ i : Instr, i.wf = true → decode (encode i) = .ok i

/-- R85, R89: encoding what a word decodes to gives the word back, but for a word of an absent
colour, which becomes the canonical one with code 7; and what a word decodes to is well-formed. -/
def Obligations.EncodeOfDecodeIsTheWord : Prop :=
  ∀ (cw : CommandWord) (i : Instr), decode cw = .ok i →
    i.wf = true ∧ (encode i = cw
      ∨ ∃ r c, i = .setpx r c none ∧ 4 ≤ (cw.extractLsb' 24 3).toNat ∧ encode i = cw ||| 0x07000000#32)

/-- R87: the conversion to a command word clamps each coordinate, codes an absent colour as 7, and
keeps the effect, for all integers. -/
def Obligations.ClampingKeepsTheEffect : Prop :=
  ∀ (row col : Int) (color : Option Color) (s : State),
    decode (encode (.setpx row col color)) = .ok (.setpx (max (-128) (min 127 row)) (max (-128) (min 127 col)) color)
    ∧ exec (.setpx (max (-128) (min 127 row)) (max (-128) (min 127 col)) color) s = exec (.setpx row col color) s
    ∧ (color = none → (encode (.setpx row col color)).extractLsb' 24 3 = 7#3)

/-- R94: a command written in the assembly notation is read back as that command. -/
def Obligations.AssemblyReadsBackCommands : Prop :=
  ∀ i : Instr, parseCommand (printCommand i) = some i

/-! ### The pixel family -/

/-- R110: with valid operands the one row is folded and nothing else changes; with any other operand
nothing changes. -/
def Obligations.SetpxFoldsOnePixel : Prop :=
  (∀ (s : State) (r c : Fin 8) (k : Color),
    exec (.setpx (r.val : Int) (c.val : Int) (some k)) s
      = .next { s with fb := s.fb.set r (foldedRow c s.fb[r] k) })
  ∧ ∀ (s : State) (row col : Int) (color : Option Color),
    (row < 0 ∨ 7 < row ∨ col < 0 ∨ 7 < col ∨ color = none) → exec (.setpx row col color) s = .next s

/-- R113: the transition table, old colour against the command's colour. -/
def Obligations.SetpxFollowsTransitionTable : Prop :=
  ∀ (s : State) (r c : Fin 8) (color : Option Color),
    ∃ t, exec (.setpx (r.val : Int) (c.val : Int) color) s = .next t
      ∧ colorAt t.fb[r] c = afterColor (colorAt s.fb[r] c) color

/-- R114: OFF clears both planes of the one pixel whatever it showed. -/
def Obligations.SetpxOffClearsBothPlanes : Prop :=
  ∀ (s : State) (r c : Fin 8),
    ∃ t, exec (.setpx (r.val : Int) (c.val : Int) (some .off)) s = .next t
      ∧ t.fb[r].getLsbD c.val = false ∧ t.fb[r].getLsbD (c.val + 8) = false

/-- R115: the frame of a valid `SETPX`: the other rows, the other 14 bits, and for GREEN and RED the
other plane's bit keep their value; no other field of the state changes. -/
def Obligations.SetpxTouchesTwoBitsOfOneRow : Prop :=
  ∀ (s : State) (r c : Fin 8) (k : Color),
    ∃ t, exec (.setpx (r.val : Int) (c.val : Int) (some k)) s = .next t
      ∧ (∀ q : Fin 8, q ≠ r → t.fb[q] = s.fb[q])
      ∧ (∀ j : Nat, j < 16 → j ≠ c.val → j ≠ c.val + 8 → t.fb[r].getLsbD j = s.fb[r].getLsbD j)
      ∧ (k = .green → t.fb[r].getLsbD (c.val + 8) = s.fb[r].getLsbD (c.val + 8))
      ∧ (k = .red → t.fb[r].getLsbD c.val = s.fb[r].getLsbD c.val)
      ∧ t = { s with fb := t.fb }

/-- R118: the algebraic properties of `SETPX` with valid operands, all five. -/
def Obligations.SetpxAlgebra : Prop :=
  ∀ (s : State) (r c r' c' : Fin 8) (k k' : Color),
    execAll [.setpx (r.val : Int) (c.val : Int) (some k), .setpx (r.val : Int) (c.val : Int) (some k)] s
      = exec (.setpx (r.val : Int) (c.val : Int) (some k)) s
    ∧ (k ≠ .off → k' ≠ .off →
      execAll [.setpx (r.val : Int) (c.val : Int) (some k), .setpx (r'.val : Int) (c'.val : Int) (some k')] s
        = execAll [.setpx (r'.val : Int) (c'.val : Int) (some k'), .setpx (r.val : Int) (c.val : Int) (some k)] s)
    ∧ ((r, c) ≠ (r', c') →
      execAll [.setpx (r.val : Int) (c.val : Int) (some k), .setpx (r'.val : Int) (c'.val : Int) (some k')] s
        = execAll [.setpx (r'.val : Int) (c'.val : Int) (some k'), .setpx (r.val : Int) (c.val : Int) (some k)] s)
    ∧ (k ≠ .off →
      (∃ t, execAll [.setpx (r.val : Int) (c.val : Int) (some .off), .setpx (r.val : Int) (c.val : Int) (some k)] s
          = .next t ∧ colorAt t.fb[r] c = k)
      ∧ ∃ t, execAll [.setpx (r.val : Int) (c.val : Int) (some k), .setpx (r.val : Int) (c.val : Int) (some .off)] s
          = .next t ∧ colorAt t.fb[r] c = .off)
    ∧ execAll [.setpx (r.val : Int) (c.val : Int) (some .green), .setpx (r.val : Int) (c.val : Int) (some .red)] s
      = exec (.setpx (r.val : Int) (c.val : Int) (some .yellow)) s
    ∧ execAll [.setpx (r.val : Int) (c.val : Int) (some .red), .setpx (r.val : Int) (c.val : Int) (some .green)] s
      = exec (.setpx (r.val : Int) (c.val : Int) (some .yellow)) s

/-! ### The buffer and flush families -/

/-- R134: `WRROW` assigns the whole row and changes nothing else. -/
def Obligations.WrrowAssignsTheRow : Prop :=
  ∀ (s : State) (r : Fin 8) (v : Row), exec (.wrrow r v) s = .next { s with fb := s.fb.set r v }

/-- R130: `CLR` zeroes every row and, when its flush operand is 1, then writes 16 zero bytes; nothing
else changes. -/
def Obligations.ClrZeroesThenFlushes : Prop :=
  ∀ s : State,
    exec (.clr false) s = .next { s with fb := Vector.replicate 8 0x0000#16 }
    ∧ exec (.clr true) s = .next { s with fb := Vector.replicate 8 0x0000#16, sinkLog := s.sinkLog ++ [⟨0, zeroFrame⟩] }

/-- R131: `CLR 1` is `CLR 0` then `WRDISP`. -/
def Obligations.ClrOneIsClrZeroThenWrdisp : Prop :=
  ∀ s : State, exec (.clr true) s = execAll [.clr false, .wrdisp] s

/-- R150, R151: `WRDISP` appends one frame, low byte then high byte per row, at offset 0, and changes
nothing else. -/
def Obligations.WrdispAppendsTheFrame : Prop :=
  ∀ s : State, exec .wrdisp s = .next { s with sinkLog := s.sinkLog ++ [⟨0, frameBytes s.fb⟩] }

/-- R138: `GETBUF` responds with the eight rows and changes nothing of the PBE. The model's choice: the
response is presented as the newest entry of the host's record (log 1). -/
def Obligations.GetbufRespondsWithTheRows : Prop :=
  ∀ s : State, exec .getbuf s = .next { s with responses := s.responses ++ [s.fb] }

/-- R140: row `i` of a response is in bits `16i+15:16i` of the response word, and `GETBUF` alone responds. -/
def Obligations.ResponseWordHoldsRowsInOrder : Prop :=
  (∀ (v : FrameBuffer) (i : Fin 8), (responseWord v).extractLsb' (16 * i.val) 16 = v[i])
  ∧ ∀ (i : Instr) (s : State), ∃ t, exec i s = .next t
    ∧ t.responses = (if i = .getbuf then s.responses ++ [s.fb] else s.responses)

/-- R51: byte `2i` of a frame is the low (green) half of row `i`, byte `2i+1` its high (red) half,
bit by bit; sixteen bytes. -/
def Obligations.FrameByteOrder : Prop :=
  ∀ fb : FrameBuffer, (frame fb).length = 16
    ∧ ∀ (i : Fin 8) (j : Nat), j < 8 →
      ((frame fb).getD (2 * i.val) 0).getLsbD j = fb[i].getLsbD j
      ∧ ((frame fb).getD (2 * i.val + 1) 0).getLsbD j = fb[i].getLsbD (j + 8)

/-- R154: `Frame` is a bijection between buffers and 16-byte sequences, with the inverse the rule
gives; a pixel is green-lit by byte `2i` and red-lit by byte `2i+1`. -/
def Obligations.FrameIsABijection : Prop :=
  (∀ fb : FrameBuffer, unframe (frame fb) = fb)
  ∧ (∀ b : List Byte, b.length = 16 → frame (unframe b) = b)
  ∧ (∀ (b : List Byte) (i : Fin 8), (unframe b)[i]
      = (b.getD (2 * i.val) 0).setWidth 16 ||| (b.getD (2 * i.val + 1) 0).setWidth 16 <<< 8)
  ∧ ∀ (fb : FrameBuffer) (i c : Fin 8),
      greenLit fb[i] c = ((frame fb).getD (2 * i.val) 0).getLsbD c.val
      ∧ redLit fb[i] c = ((frame fb).getD (2 * i.val + 1) 0).getLsbD c.val

/-- R155: how many sink writes each command performs, and that each is of a whole frame at offset 0. -/
def Obligations.SinkWriteCounts : Prop :=
  ∀ (i : Instr) (s : State), ∃ t, exec i s = .next t
    ∧ t.sinkLog = s.sinkLog ++ List.replicate (sinkWrites i) ⟨0, frameBytes t.fb⟩

/-- R57: reads have no side effects and writes are idempotent. -/
def Obligations.ReadsAndWritesAreIdempotent : Prop :=
  ∀ s : State,
    (∃ t, execAll [.getbuf, .getbuf] s = .next t ∧ t.fb = s.fb ∧ t.sinkLog = s.sinkLog
      ∧ t.responses = s.responses ++ [s.fb, s.fb])
    ∧ (∃ t e, execAll [.wrdisp, .wrdisp] s = .next t ∧ t.fb = s.fb ∧ t.sinkLog = s.sinkLog ++ [e, e])
    ∧ (∀ (r : Fin 8) (v : Row), execAll [.wrrow r v, .wrrow r v] s = exec (.wrrow r v) s
      ∧ ∃ t, exec (.wrrow r v) s = .next t ∧ t.fb[r] = v)
    ∧ (∀ (row col : Int) (k : Option Color),
      execAll [.setpx row col k, .setpx row col k] s = exec (.setpx row col k) s)
    ∧ ∀ f f' : Bool, ∃ t, execAll [.clr f, .clr f'] s = .next t ∧ ∀ r : Fin 8, t.fb[r] = 0

/-- R53: a frame after a `SETPX` or `WRROW` differs from the one before in the two wire bytes of the
row it changed and in no other. -/
def Obligations.ARowChangesTwoWireBytes : Prop :=
  ∀ (s : State) (r : Fin 8) (k : Nat), k / 2 ≠ r.val →
    (∀ v : Row, ∃ t, exec (.wrrow r v) s = .next t
      ∧ (frame t.fb).getD k 0 = (frame s.fb).getD k 0
      ∧ (frame t.fb).getD (2 * r.val) 0 = v.extractLsb' 0 8
      ∧ (frame t.fb).getD (2 * r.val + 1) 0 = v.extractLsb' 8 8)
    ∧ ∀ (c : Fin 8) (color : Color), ∃ t, exec (.setpx (r.val : Int) (c.val : Int) (some color)) s = .next t
      ∧ (frame t.fb).getD k 0 = (frame s.fb).getD k 0
      ∧ (frame t.fb).getD (2 * r.val) 0 = (foldedRow c s.fb[r] color).extractLsb' 0 8
      ∧ (frame t.fb).getD (2 * r.val + 1) 0 = (foldedRow c s.fb[r] color).extractLsb' 8 8

/-! ### The whole machine -/

/-- R210: every command, with every operand value, completes in every state. -/
def Obligations.EveryCommandCompletes : Prop := ∀ (i : Instr) (s : State), ∃ t, exec i s = .next t

/-- R26: the sink log is empty at reset, each command appends at most one entry `(0, 16 bytes)` and
never shortens it, and no command reads it. -/
def Obligations.SinkLogIsAppendOnlyAndUnread : Prop :=
  State.reset.sinkLog = []
  ∧ ∀ (i : Instr) (s : State), ∃ t new, exec i s = .next t ∧ t.sinkLog = s.sinkLog ++ new
    ∧ new.length ≤ 1 ∧ (∀ e ∈ new, e.offset = 0 ∧ e.bytes.length = 16)
    ∧ ∀ log : List SinkEntry, exec i { s with sinkLog := log } = .next { t with sinkLog := log ++ new }

/-- R23, R27, R66: what a command does depends on the rows alone: two states with the same rows get
the same rows, the same new frames and the same new responses, whatever their logs and sinks hold. -/
def Obligations.CommandsDependOnTheRowsAlone : Prop :=
  ∀ (i : Instr) (s₁ s₂ : State), s₁.fb = s₂.fb →
    ∃ t₁ t₂ frames answers, exec i s₁ = .next t₁ ∧ exec i s₂ = .next t₂ ∧ t₁.fb = t₂.fb
      ∧ t₁.sinkLog = s₁.sinkLog ++ frames ∧ t₂.sinkLog = s₂.sinkLog ++ frames
      ∧ t₁.responses = s₁.responses ++ answers ∧ t₂.responses = s₂.responses ++ answers

/-- Every step keeps the invariant, over every glyph table and enumeration: each sink-log entry is a
whole frame at offset 0 (R152, R56) and the brightness is in 0..15 (R28). -/
def Obligations.EveryStepKeepsTheInvariant : Prop :=
  ∀ (table : GlyphTable) (rates : List BlinkRate) (s t : State),
    s.inv = true → stepWith table rates s = .next t → t.inv = true

/-- R60 item 5: nothing changes `FB`, nor the sink log, except a command (and a reset, R241). -/
def Obligations.OnlyCommandsChangeTheBuffer : Prop :=
  ∀ (table : GlyphTable) (rates : List BlinkRate) (s t : State) (h : HostStep) (rest : List HostStep),
    s.pending = h :: rest → (∀ cw, h ≠ .issue cw) → h ≠ .resetInput →
    stepWith table rates s = .next t → t.fb = s.fb ∧ t.sinkLog = s.sinkLog ∧ t.responses = s.responses

/-- R255: every run of steps the spec gives a meaning to ends, having done all of them. The model's
choice: beginning a macro is one step more than its expansion (log 9). -/
def Obligations.EveryAdmissibleRunEnds : Prop :=
  ∀ (table : GlyphTable) (rates : List BlinkRate) (s : State),
    (∀ h ∈ s.pending, h.admissible table rates = true) →
    ∃ t, runWith table rates (runLength table s.pending) s = .next t ∧ t.pending = []

/-- R156, R27: the device shows the frame of a delivered flush, and what the environment leaves after
one that was not. -/
def Obligations.DeviceShowsTheDeliveredFlush : Prop :=
  ∀ (env : SinkEnvironment) (s : State), ∃ t, exec .wrdisp s = .next t
    ∧ (env.delivers s.sinkLog.length = true → deviceImage env t.sinkLog = frameBytes s.fb)
    ∧ (env.delivers s.sinkLog.length = false → deviceImage env t.sinkLog = env.undelivered s.sinkLog.length)

/-- R247: what `SETPX`, `WRROW` and `CLR 0` change, and what `GETBUF` reads, the display does not show. -/
def Obligations.UnflushedChangesAreInvisible : Prop :=
  ∀ (env : SinkEnvironment) (s : State) (i : Instr), i ≠ .clr true → i ≠ .wrdisp →
    ∃ t, exec i s = .next t ∧ deviceImage env t.sinkLog = deviceImage env s.sinkLog

/-- R61: a model refuses two unserialised issuers. A stop, cited. -/
def Obligations.UnserialisedIssuersAreRefused : Prop :=
  ∀ (s : State) (a b : CommandWord) (rest : List HostStep),
    s.pending = .concurrentIssue a b :: rest → step s = .refused .unserialisedIssuers

/-- R241: the reset input gives the rows and the sink log of R240. The model's choice: the host and
the sink keep theirs (log 12). -/
def Obligations.ResetInputClearsTheBlock : Prop :=
  ∀ (s : State) (rest : List HostStep), s.pending = .resetInput :: rest →
    step s = .next { s with fb := Vector.replicate 8 0x0000#16, sinkLog := [], pending := rest }

/-- R219, R28: a brightness request is stored clamped to 0..15 and nothing else changes. -/
def Obligations.BrightnessIsClamped : Prop :=
  ∀ (s : State) (b : Int) (rest : List HostStep), s.pending = .setBrightness b :: rest →
    ∃ n : Nat, step s = .next { s with brightness := n, pending := rest }
      ∧ (b < 0 → n = 0) ∧ (15 < b → n = 15) ∧ (0 ≤ b → b ≤ 15 → (n : Int) = b)

/-- R219, U4: a blink rate of the enumeration is stored, another is refused; the refusal is the spec's. -/
def Obligations.BlinkRateIsValidated : Prop :=
  ∀ (table : GlyphTable) (rates : List BlinkRate) (s : State) (x : BlinkRate) (rest : List HostStep),
    s.pending = .setBlinkRate x :: rest →
    (x ∈ rates → stepWith table rates s = .next { s with blinkRate := x, pending := rest })
    ∧ (x ∉ rates → stepWith table rates s = .refused (.blinkRateOutside x))

/-- R243: construction always yields an instance in the reset state, with the bus-backed sink when it
succeeds and the fallback on any failure. The model's choices: the whole reset state, so the sink's
scalars (log 4) and the host's empty lists (logs 1, 2) with it, and what success depends on (log 14). -/
def Obligations.ConstructionAlwaysYieldsReset : Prop :=
  (∀ (ok : Bool) (bus address : Nat), (construct ok bus address).state = State.reset
    ∧ (construct ok bus address).sink = (if ok then .busBacked bus address else .console))
  ∧ ∀ bus address : Nat, ∃ ok, createMatrix bus address = construct ok bus address

/-- R32, R244: a step of one instance leaves every other instance, and its own sink, as they were. -/
def Obligations.InstancesDoNotInteract : Prop :=
  ∀ (sys sys' : System) (k : Fin sys.length), System.stepAt sys k = .next sys' →
    sys'.length = sys.length
    ∧ (∀ j : Nat, j ≠ k.val → sys'[j]? = sys[j]?)
    ∧ ∃ m, sys'[k.val]? = some m ∧ m.sink = (sys.get k).sink ∧ step (sys.get k).state = .next m.state

/-! ### The host's macros -/

/-- R180: `Fix` is the low byte of the 32-bit reversal and byte swap, whose other bits are zero, and it
reverses the eight bits of a glyph row. -/
def Obligations.FixReversesTheByte : Prop :=
  ∀ v : Byte, bswap32 (rev32 (v.setWidth 32)) = (fix v).setWidth 32
    ∧ ∀ i : Nat, i < 8 → (fix v).getLsbD i = v.getLsbD (7 - i)

/-- R181: on a 32-bit word the fix-up reverses the bits inside each byte, its two steps commute, and
on glyph rows it is an involution. -/
def Obligations.FixUpReversesInsideBytes : Prop :=
  (∀ (w : BitVec 32) (k i : Nat), k < 4 → i < 8 →
    (bswap32 (rev32 w)).getLsbD (8 * k + i) = w.getLsbD (8 * k + (7 - i)))
  ∧ (∀ w : BitVec 32, rev32 (bswap32 w) = bswap32 (rev32 w))
  ∧ (∀ v : Byte, fix (fix v) = v)
  ∧ bswap32 (rev32 0x12345678#32) = 0x482C6A1E#32

/-- R190, R191: the scroll window is the eight columns from `col` of the strip of the two rows, and
fits 8 bits. -/
def Obligations.ScrollWindowIsTheStrip : Prop :=
  (∀ (cur nxt : Byte) (col : Fin 8) (j : Nat), j < 8 →
    (win cur nxt col).getLsbD j
      = (if j + col.val ≤ 7 then cur.getLsbD (j + col.val) else nxt.getLsbD (j + col.val - 8)))
  ∧ (∀ (cur nxt : Byte) (col : Fin 8), (win cur nxt col).toNat < 256)
  ∧ ∀ cur nxt : Byte, win cur nxt 0 = cur.setWidth 32

/-- R176: a hold is a step that records its duration in the host's trace and changes nothing else. -/
def Obligations.HoldIsRecorded : Prop :=
  ∀ (s : State) (n : Nat) (rest : List HostStep), s.pending = .hold n :: rest →
    step s = .next { s with holdTrace := s.holdTrace ++ [n], pending := rest }

/-- R182, R183: `GLYPH ch` is eight `WRROW` in row order and no flush; run to its end it leaves the
fixed-up glyph in the green plane and every red bit clear. The model's choices: beginning the macro is
a step, so nine of them (log 9), and the printable range (log 7). -/
def Obligations.GlyphWritesTheFixedUpRows : Prop :=
  ∀ (table : GlyphTable) (rates : List BlinkRate) (s : State) (ch : Nat) (g : Glyph) (rest : List HostStep),
    glyphIs table ch g → s.pending = .invoke (.glyph ch) :: rest →
    (HostMacro.glyph ch).expand table
      = .ok (([0, 1, 2, 3, 4, 5, 6, 7] : List (Fin 8)).map fun r => .issue (encode (.wrrow r ((g[r].reverse).setWidth 16))))
    ∧ runWith table rates 9 s = .next { s with fb := glyphBuffer g, pending := rest }

/-- R186: `TEXT s, d` is one cycle per character, in order; run to its end it leaves per character the
glyph's frame and a blank frame, the holds `d` and 50, and a cleared buffer (R187), and for the empty
text nothing at all (the spec's decision D24, R188; log 17). The model's choices: beginning the macro is
a step, one beside the 13 of each cycle (log 9), and the printable range (log 7). -/
def Obligations.TextShowsEachGlyphThenBlank : Prop :=
  ∀ (table : GlyphTable) (rates : List BlinkRate) (s : State) (chars : List Nat) (gs : List Glyph) (d : Nat)
    (rest : List HostStep),
    List.Forall₂ (glyphIs table) chars gs → s.pending = .invoke (.text chars (d : Int)) :: rest →
    (HostMacro.text chars (d : Int)).expand table = .ok (gs.flatMap (textCycleSteps d))
    ∧ runWith table rates (13 * chars.length + 1) s = .next
      { s with
        fb := if chars = [] then s.fb else Vector.replicate 8 0x0000#16
        sinkLog := s.sinkLog ++ gs.flatMap fun g => [⟨0, frameBytes (glyphBuffer g)⟩, ⟨0, zeroFrame⟩]
        holdTrace := s.holdTrace ++ gs.flatMap fun _ => [d, 50]
        pending := rest }

/-- R192: `SCROLL s, d` is, per pair, shift and row, a row store and a flush, a hold of `d / 8` per
shift, and a last `CLR 0`; run to its end it leaves `64(n+1)` frames, each after one more row of the
window (R193, R194), `8(n+1)` holds, and a cleared buffer that is not flushed (R195). The model's
choices: beginning the macro is a step, one beside the `136(n+1)+1` of the expansion (log 9), and the
printable range (log 7). -/
def Obligations.ScrollSendsEveryIntermediateFrame : Prop :=
  ∀ (table : GlyphTable) (rates : List BlinkRate) (s : State) (chars : List Nat) (gs : List Glyph) (d : Nat)
    (rest : List HostStep),
    List.Forall₂ (glyphIs table) ([32] ++ chars ++ [32]) gs →
    s.pending = .invoke (.scroll chars (d : Int)) :: rest →
    (HostMacro.scroll chars (d : Int)).expand table = .ok (scrollAllSteps gs chars.length d)
    ∧ runWith table rates (136 * (chars.length + 1) + 2) s = .next
      { s with
        fb := Vector.replicate 8 0x0000#16
        sinkLog := s.sinkLog ++ (List.range (64 * (chars.length + 1))).map
          fun m => ⟨0, frameBytes (scrollBuffer s.fb gs m)⟩
        holdTrace := s.holdTrace ++ List.replicate (8 * (chars.length + 1)) (d / 8)
        pending := rest }

/-- R179: a macro with a character that is not printable, or whose glyph is undefined, is refused. -/
def Obligations.BadCharactersAreRefused : Prop :=
  ∀ (table : GlyphTable) (rates : List BlinkRate) (s : State) (rest : List HostStep) (ch : Nat),
    (¬ (32 ≤ ch ∧ ch ≤ 126) ∨ table (ch - 31) = none) →
    (s.pending = .invoke (.glyph ch) :: rest → ∃ r, stepWith table rates s = .refused r)
    ∧ (∀ (chars : List Nat) (d : Int), ch ∈ chars →
        (s.pending = .invoke (.text chars d) :: rest → ∃ r, stepWith table rates s = .refused r)
        ∧ (s.pending = .invoke (.scroll chars d) :: rest → ∃ r, stepWith table rates s = .refused r))

/-- R198: a negative duration is refused; for the others the scroll hold is `floor(d / 8)`. -/
def Obligations.NegativeDurationsAreRefused : Prop :=
  (∀ (s : State) (chars : List Nat) (d : Int) (rest : List HostStep), d < 0 →
    (s.pending = .invoke (.text chars d) :: rest → step s = .refused (.negativeDuration d))
    ∧ (s.pending = .invoke (.scroll chars d) :: rest → step s = .refused (.negativeDuration d)))
  ∧ ∀ d : Nat, 8 * idiv8 d ≤ d ∧ d < 8 * idiv8 d + 8

/-! ### Runs that keep a meaning, and the unit of time -/

/-- R255, R170: a step from a state whose pending host steps all have a meaning leaves only such steps;
what a macro expands to has a meaning in every step. The model's choice: the expansion is put before the
rest in one step (log 9). -/
def Obligations.EveryStepKeepsPendingAdmissible : Prop :=
  ∀ (table : GlyphTable) (rates : List BlinkRate) (s t : State),
    (∀ h ∈ s.pending, h.admissible table rates = true) → stepWith table rates s = .next t →
    ∀ h ∈ t.pending, h.admissible table rates = true

/-- At reset every pending host step has a meaning. The model's choice: none is pending (log 2). -/
def Obligations.PendingAdmissibleAtReset : Prop :=
  ∀ (table : GlyphTable) (rates : List BlinkRate),
    ∀ h ∈ State.reset.pending, h.admissible table rates = true

/-- R9, R176, R196: whatever `TIME_UNIT` is, a hold of `n` adds `n` of it to the nominal time waited, and
the eight holds of a scrolled pair come to `8 * idiv(d, 8)` of it. The trace is log 10's. -/
def Obligations.HoldsAreCountedInTheTimeUnit : Prop :=
  ∀ (τ : Type) [AddMonoid τ] (timeUnit : τ),
    (∀ (s : State) (n : Nat) (rest : List HostStep), s.pending = .hold n :: rest →
      ∃ t, step s = .next t ∧ t.nominalWait timeUnit = s.nominalWait timeUnit + n • timeUnit)
    ∧ ∀ (s : State) (d : Nat),
      ({ s with holdTrace := s.holdTrace ++ List.replicate 8 (idiv8 d) } : State).nominalWait timeUnit
        = s.nominalWait timeUnit + (8 * (d / 8)) • timeUnit
end

