-- ==== Sys2Proof/Laws/State.lean ====
section
/-! SUPPORT. What each named update of State leaves in each field, one lemma per field per update. -/

namespace Sys2Proof.Machine.State

variable (s : State)

@[simp] theorem writeRow_fb (r : Fin 8) (v : Row) : (s.writeRow r v).fb = s.fb.set r v := rfl
@[simp] theorem writeRow_sinkLog (r : Fin 8) (v : Row) : (s.writeRow r v).sinkLog = s.sinkLog := rfl
@[simp] theorem writeRow_responses (r : Fin 8) (v : Row) : (s.writeRow r v).responses = s.responses := rfl
@[simp] theorem writeRow_holdTrace (r : Fin 8) (v : Row) : (s.writeRow r v).holdTrace = s.holdTrace := rfl
@[simp] theorem writeRow_pending (r : Fin 8) (v : Row) : (s.writeRow r v).pending = s.pending := rfl
@[simp] theorem writeRow_brightness (r : Fin 8) (v : Row) : (s.writeRow r v).brightness = s.brightness := rfl
@[simp] theorem writeRow_blinkRate (r : Fin 8) (v : Row) : (s.writeRow r v).blinkRate = s.blinkRate := rfl

@[simp] theorem clearRows_fb : (s.clearRows).fb = zeroBuffer := rfl
@[simp] theorem clearRows_sinkLog : (s.clearRows).sinkLog = s.sinkLog := rfl
@[simp] theorem clearRows_responses : (s.clearRows).responses = s.responses := rfl
@[simp] theorem clearRows_holdTrace : (s.clearRows).holdTrace = s.holdTrace := rfl
@[simp] theorem clearRows_pending : (s.clearRows).pending = s.pending := rfl
@[simp] theorem clearRows_brightness : (s.clearRows).brightness = s.brightness := rfl
@[simp] theorem clearRows_blinkRate : (s.clearRows).blinkRate = s.blinkRate := rfl

@[simp] theorem sinkWrite_fb (off : Nat) (b : List Byte) : (s.sinkWrite off b).fb = s.fb := rfl
@[simp] theorem sinkWrite_sinkLog (off : Nat) (b : List Byte) : (s.sinkWrite off b).sinkLog = s.sinkLog ++ [⟨off, b⟩] := rfl
@[simp] theorem sinkWrite_responses (off : Nat) (b : List Byte) : (s.sinkWrite off b).responses = s.responses := rfl
@[simp] theorem sinkWrite_holdTrace (off : Nat) (b : List Byte) : (s.sinkWrite off b).holdTrace = s.holdTrace := rfl
@[simp] theorem sinkWrite_pending (off : Nat) (b : List Byte) : (s.sinkWrite off b).pending = s.pending := rfl
@[simp] theorem sinkWrite_brightness (off : Nat) (b : List Byte) : (s.sinkWrite off b).brightness = s.brightness := rfl
@[simp] theorem sinkWrite_blinkRate (off : Nat) (b : List Byte) : (s.sinkWrite off b).blinkRate = s.blinkRate := rfl

@[simp] theorem flush_fb : (s.flush).fb = s.fb := rfl
@[simp] theorem flush_sinkLog : (s.flush).sinkLog = s.sinkLog ++ [⟨sinkOffset, frame s.fb⟩] := rfl
@[simp] theorem flush_responses : (s.flush).responses = s.responses := rfl
@[simp] theorem flush_holdTrace : (s.flush).holdTrace = s.holdTrace := rfl
@[simp] theorem flush_pending : (s.flush).pending = s.pending := rfl
@[simp] theorem flush_brightness : (s.flush).brightness = s.brightness := rfl
@[simp] theorem flush_blinkRate : (s.flush).blinkRate = s.blinkRate := rfl

@[simp] theorem respond_fb : (s.respond).fb = s.fb := rfl
@[simp] theorem respond_sinkLog : (s.respond).sinkLog = s.sinkLog := rfl
@[simp] theorem respond_responses : (s.respond).responses = s.responses ++ [s.fb] := rfl
@[simp] theorem respond_holdTrace : (s.respond).holdTrace = s.holdTrace := rfl
@[simp] theorem respond_pending : (s.respond).pending = s.pending := rfl
@[simp] theorem respond_brightness : (s.respond).brightness = s.brightness := rfl
@[simp] theorem respond_blinkRate : (s.respond).blinkRate = s.blinkRate := rfl

@[simp] theorem recordHold_fb (n : Nat) : (s.recordHold n).fb = s.fb := rfl
@[simp] theorem recordHold_sinkLog (n : Nat) : (s.recordHold n).sinkLog = s.sinkLog := rfl
@[simp] theorem recordHold_responses (n : Nat) : (s.recordHold n).responses = s.responses := rfl
@[simp] theorem recordHold_holdTrace (n : Nat) : (s.recordHold n).holdTrace = s.holdTrace ++ [n] := rfl
@[simp] theorem recordHold_pending (n : Nat) : (s.recordHold n).pending = s.pending := rfl
@[simp] theorem recordHold_brightness (n : Nat) : (s.recordHold n).brightness = s.brightness := rfl
@[simp] theorem recordHold_blinkRate (n : Nat) : (s.recordHold n).blinkRate = s.blinkRate := rfl

@[simp] theorem withPending_fb (l : List HostStep) : (s.withPending l).fb = s.fb := rfl
@[simp] theorem withPending_sinkLog (l : List HostStep) : (s.withPending l).sinkLog = s.sinkLog := rfl
@[simp] theorem withPending_responses (l : List HostStep) : (s.withPending l).responses = s.responses := rfl
@[simp] theorem withPending_holdTrace (l : List HostStep) : (s.withPending l).holdTrace = s.holdTrace := rfl
@[simp] theorem withPending_pending (l : List HostStep) : (s.withPending l).pending = l := rfl
@[simp] theorem withPending_brightness (l : List HostStep) : (s.withPending l).brightness = s.brightness := rfl
@[simp] theorem withPending_blinkRate (l : List HostStep) : (s.withPending l).blinkRate = s.blinkRate := rfl

/-- A hold adds its nominal duration to the time waited. -/
@[simp] theorem nominalWait_recordHold {τ : Type} [AddMonoid τ] (timeUnit : τ) (n : Nat) :
    (s.recordHold n).nominalWait timeUnit = s.nominalWait timeUnit + nominalDuration timeUnit n := by
  simp [nominalWait]

/-- Taking or placing host steps changes no time waited. -/
@[simp] theorem nominalWait_withPending {τ : Type} [AddMonoid τ] (timeUnit : τ) (l : List HostStep) :
    (s.withPending l).nominalWait timeUnit = s.nominalWait timeUnit := rfl

/-- Placing a command word changes only what the host does next. -/
@[simp] theorem withFetchWord_pending (nbits w : Nat) :
    (s.withFetchWord nbits w).pending = .issue (tableWord nbits w) :: s.pending := rfl

/-- Taking a placed word off again gives the state back. -/
@[simp] theorem withFetchWord_withPending (nbits w : Nat) :
    (s.withFetchWord nbits w).withPending s.pending = s := rfl

@[simp] theorem withPending_withPending (l m : List HostStep) : (s.withPending l).withPending m = s.withPending m := rfl

@[simp] theorem withPending_self : s.withPending s.pending = s := rfl

@[simp] theorem readRow_writeRow (r : Fin 8) (v : Row) : (s.writeRow r v).readRow r = v := by
  simp [readRow]

theorem readRow_writeRow_ne (r q : Fin 8) (v : Row) (h : q ≠ r) : (s.writeRow r v).readRow q = s.readRow q := by
  have hv : r.val ≠ q.val := fun e => h (Fin.ext e.symm)
  simp [readRow, hv]

@[simp] theorem readRow_clearRows (r : Fin 8) : s.clearRows.readRow r = 0 := by
  simp [readRow, zeroBuffer]

end Sys2Proof.Machine.State
end

