-- ==== Sys2Proof/Laws/Ops.lean ====
section
/-! SUPPORT. One lemma per shared operation of the block: what it gives for every operand. -/

namespace Sys2Proof.Machine

/-- A row or column number 0..7 is a valid coordinate and names itself. -/
@[simp] theorem coordinate_coe (r : Fin 8) : coordinate (r.val : Int) = some r := by
  have h : (0 : Int) ≤ (r.val : Int) ∧ (r.val : Int) ≤ 7 := by omega
  simp [coordinate, h]

/-- A valid coordinate is a row or column number 0..7. -/
theorem coordinate_eq_some_iff (v : Int) (r : Fin 8) : coordinate v = some r ↔ v = (r.val : Int) := by
  constructor
  · intro h
    unfold coordinate at h
    split at h
    · cases h; simp; omega
    · cases h
  · rintro rfl; simp

/-- Exactly the integers outside 0..7 are no coordinates (R112). -/
theorem coordinate_eq_none_iff (v : Int) : coordinate v = none ↔ v < 0 ∨ 7 < v := by
  unfold coordinate
  split <;> simp <;> omega

/-- `bit16 n` has bit `n` set and no other (R11). -/
theorem bit16_getLsbD (n j : Nat) (hn : n < 16) : (bit16 n).getLsbD j = decide (j = n) := by
  by_cases hj : j < 16
  · simp only [bit16, BitVec.getLsbD_shiftLeft, BitVec.getLsbD_one]
    by_cases h : j = n
    · subst h; simp [hj]
    · by_cases h2 : j < n <;> simp [hj, h, h2]
      omega
  · have h : j ≠ n := by omega
    simp [BitVec.getLsbD_of_ge _ _ (by omega : 16 ≤ j), h]

/-- Bit `j` of a folded row, for each colour (R110, R115). -/
theorem foldPixel_getLsbD (c : Fin 8) (k : Color) (v : Row) (j : Nat) (hj : j < 16) :
    (foldPixel c k v).getLsbD j =
      match k with
      | .green => v.getLsbD j || decide (j = c.val)
      | .red => v.getLsbD j || decide (j = c.val + 8)
      | .yellow => v.getLsbD j || decide (j = c.val) || decide (j = c.val + 8)
      | .off => v.getLsbD j && !decide (j = c.val) && !decide (j = c.val + 8) := by
  have h1 := bit16_getLsbD c.val j (by omega)
  have h2 := bit16_getLsbD (c.val + 8) j (by omega)
  cases k <;> simp only [foldPixel, greenMask, redMask, BitVec.getLsbD_or, BitVec.getLsbD_and,
    BitVec.getLsbD_not, h1, h2, hj, decide_true, Bool.true_and]

/-- The even wire bytes are the green planes, the odd ones the red planes (R51, R151). -/
theorem mux_even (fb : FrameBuffer) (i : Fin 8) : mux fb ⟨2 * i.val, by omega⟩ = lo8 fb[i] := by
  simp [mux]

theorem mux_odd (fb : FrameBuffer) (i : Fin 8) : mux fb ⟨2 * i.val + 1, by omega⟩ = hi8 fb[i] := by
  have h : (2 * i.val + 1) / 2 = i.val := by omega
  simp [mux, h]

/-- A frame is 16 bytes (R56). -/
@[simp] theorem frame_length (fb : FrameBuffer) : (frame fb).length = 16 := by
  simp [frame, wireIndices]

/-- The wire byte indices are in order. -/
theorem wireIndices_getElem (k : Fin 16) : wireIndices[k.val]'(by simp [wireIndices]) = k := by
  fin_cases k <;> rfl

/-- Wire byte `k` of a frame is what the multiplexer selects (R153). -/
theorem frame_getElem (fb : FrameBuffer) (k : Fin 16) : (frame fb)[k.val]'(by simp) = mux fb k := by
  simp only [frame, List.getElem_map, wireIndices_getElem]

/-- A row is its two halves (R154). -/
theorem join_halves (v : Row) : (lo8 v).setWidth 16 ||| (hi8 v).setWidth 16 <<< 8 = v := by
  ext i hi
  simp [lo8, hi8]
  interval_cases i <;> simp

end Sys2Proof.Machine
end

