-- ==== Sys2Proof/Laws/Dispatch.lean ====
section
/-! SUPPORT. What an execution and a step can do, said once: the inversion lemmas later proofs cite. -/

namespace Sys2Proof.Machine

/-- The update a command makes: none, one row, the whole buffer, a flush, or a response. -/
theorem exec_cases {i : Instr} {s t : State} (h : exec i s = .next t) :
    (t = s ∧ ∃ row col color, i = .setpx row col color)
    ∨ (∃ row col color r c k, i = .setpx row col color ∧ coordinate row = some r ∧ coordinate col = some c
        ∧ color = some k ∧ t = s.writeRow r (foldPixel c k (s.readRow r)))
    ∨ (∃ r v, i = .wrrow r v ∧ t = s.writeRow r v)
    ∨ (i = .clr false ∧ t = s.clearRows)
    ∨ (i = .clr true ∧ t = s.clearRows.flush)
    ∨ (i = .wrdisp ∧ t = s.flush)
    ∨ (i = .getbuf ∧ t = s.respond) := by
  cases i with
  | setpx row col color =>
    simp only [exec, execSetpx] at h
    split at h
    · rename_i r c k hr hc
      cases h
      exact .inr (.inl ⟨row, col, _, r, c, k, rfl, hr, hc, rfl, rfl⟩)
    · cases h; exact .inl ⟨rfl, row, col, _, rfl⟩
  | wrrow r v => cases h; exact .inr (.inr (.inl ⟨r, v, rfl, rfl⟩))
  | clr f =>
    cases f <;> cases h
    · exact .inr (.inr (.inr (.inl ⟨rfl, rfl⟩)))
    · exact .inr (.inr (.inr (.inr (.inl ⟨rfl, rfl⟩))))
  | wrdisp => cases h; exact .inr (.inr (.inr (.inr (.inr (.inl ⟨rfl, rfl⟩)))))
  | getbuf => cases h; exact .inr (.inr (.inr (.inr (.inr (.inr ⟨rfl, rfl⟩)))))

/-- No command touches the host's list, its trace of holds or the sink's scalars. -/
theorem exec_frame {i : Instr} {s t : State} (h : exec i s = .next t) :
    t.pending = s.pending ∧ t.holdTrace = s.holdTrace ∧ t.brightness = s.brightness
      ∧ t.blinkRate = s.blinkRate := by
  obtain ⟨rfl, -⟩ | ⟨-, -, -, -, -, -, -, -, -, -, rfl⟩ | ⟨-, -, -, rfl⟩ | ⟨-, rfl⟩ | ⟨-, rfl⟩ | ⟨-, rfl⟩ | ⟨-, rfl⟩ :=
    exec_cases h <;> simp

/-- A step that answers next, by what the host had to do. -/
theorem stepWith_cases {table : GlyphTable} {rates : List BlinkRate} {s t : State}
    (h : stepWith table rates s = .next t) :
    (s.pending = [] ∧ t = s)
    ∨ ∃ x rest, s.pending = x :: rest ∧
      ((∃ cw i, x = .issue cw ∧ decode cw = .ok i ∧ exec i (s.withPending rest) = .next t)
      ∨ (∃ n, x = .hold n ∧ t = (s.withPending rest).recordHold n)
      ∨ (∃ m steps, x = .invoke m ∧ m.expand table = .ok steps ∧ t = s.withPending (steps ++ rest))
      ∨ (∃ b, x = .setBrightness b ∧ t = { s.withPending rest with brightness := clampBrightness b })
      ∨ (∃ r, x = .setBlinkRate r ∧ r ∈ rates ∧ t = { s.withPending rest with blinkRate := r })
      ∨ (x = .resetInput ∧ t = { s.withPending rest with fb := zeroBuffer, sinkLog := [] })) := by
  unfold stepWith at h
  split at h
  · rename_i hp; cases h; exact .inl ⟨hp, rfl⟩
  · rename_i x rest hp
    refine .inr ⟨x, rest, hp, ?_⟩
    cases x with
    | issue cw =>
      simp only [performHostStep, performIssue] at h
      split at h
      · rename_i i hi; exact .inl ⟨cw, i, rfl, hi, h⟩
      · cases h
    | hold n => cases h; exact .inr (.inl ⟨n, rfl, rfl⟩)
    | invoke m =>
      simp only [performHostStep, performInvoke] at h
      split at h
      · rename_i steps hm; cases h; exact .inr (.inr (.inl ⟨m, steps, rfl, hm, rfl⟩))
      · cases h
    | setBrightness b => cases h; exact .inr (.inr (.inr (.inl ⟨b, rfl, rfl⟩)))
    | setBlinkRate r =>
      simp only [performHostStep, performSetBlinkRate] at h
      split at h
      · rename_i hr; cases h; exact .inr (.inr (.inr (.inr (.inl ⟨r, rfl, hr, rfl⟩))))
      · cases h
    | resetInput => cases h; exact .inr (.inr (.inr (.inr (.inr ⟨rfl, rfl⟩))))
    | concurrentIssue a b => cases h

end Sys2Proof.Machine
end

