-- ==== Sys2Proof/Laws/Encoding.lean ====
section
/-! SUPPORT. The fields of encoded words and the conversion of coordinates. -/

namespace Sys2Proof

/-- A clamped coordinate fits its field, and clamping changes only coordinates outside it (R87). -/
theorem clampCoord_fits (v : Int) : coordFits (clampCoord v) = true := by
  simp [coordFits, clampCoord]

theorem clampCoord_of_fits {v : Int} (h : coordFits v = true) : clampCoord v = v := by
  simp [coordFits] at h
  simp [clampCoord]; omega

/-- Putting a clamped coordinate into its field and reading it back gives it (R86, R87). -/
theorem toInt_ofInt_clampCoord (v : Int) : (BitVec.ofInt 8 (clampCoord v)).toInt = clampCoord v := by
  have h := clampCoord_fits v
  simp [coordFits] at h
  rw [BitVec.toInt_ofInt]
  exact Int.bmod_eq_of_le (by omega) (by omega)

/-- Reading the colour field back (R85). -/
@[simp] theorem colorOfCode_colorCode (k : Option Color) : colorOfCode (colorCode k) = k := by
  rcases k with _ | k
  · rfl
  · cases k <;> rfl

/-- A command that needs no conversion is left as it is (R87). -/
theorem clamped_of_wf {i : Instr} (h : i.wf = true) : i.clamped = i := by
  cases i with
  | setpx row col color =>
    simp [Instr.wf] at h
    simp [Instr.clamped, clampCoord_of_fits h.1, clampCoord_of_fits h.2]
  | wrrow _ _ => rfl
  | clr _ => rfl
  | wrdisp => rfl
  | getbuf => rfl

end Sys2Proof
end

