-- ==== Sys2Proof/Laws/PerInstr.lean ====
section
/-! SUPPORT. Facts about every command as syntax, one lemma per constructor. -/

namespace Sys2Proof.Laws.EncodeMatchesTable

/-- The encoded word of a command matches the command's row of the opcode map (R84, R89). -/
def Statement (i : Instr) : Prop := i.opcodeRow.matchesWord (encode i) = true

theorem setpx (row col : Int) (color : Option Color) : Statement (.setpx row col color) := by
  simp only [Statement, Instr.opcodeRow, OpcodeRow.matchesWord, encode, beq_iff_eq]
  ext i hi
  interval_cases i <;> simp

theorem wrrow (row : Fin 8) (value : Row) : Statement (.wrrow row value) := by
  simp only [Statement, Instr.opcodeRow, OpcodeRow.matchesWord, encode, beq_iff_eq]
  ext i hi
  interval_cases i <;> simp

theorem clr (flush : Bool) : Statement (.clr flush) := by
  cases flush <;> rfl

theorem wrdisp : Statement .wrdisp := rfl

theorem getbuf : Statement .getbuf := rfl

end Sys2Proof.Laws.EncodeMatchesTable
end

