-- ==== Sys2Proof/Tests/Slice0.lean ====
section
/-! SUPPORT. Small tests whose expected values are the spec's own (95_test_vectors.md, 30_encoding.md R90), and, for every statement with hypotheses, a witness that meets them. -/

namespace Sys2Proof.Tests

open Sys2Proof.Machine Sys2Proof.Spec

/-- The reset state with these rows. -/
def withRows (fb : FrameBuffer) : State := { State.reset with fb := fb }

/-- The reset state with this list of host steps. -/
def withSteps (l : List HostStep) : State := { State.reset with pending := l }

/-- What a next state holds under `f`, if there is one. -/
def after {α : Type} (f : State → α) : Host.Outcome State Fault Refusal → Option α
  | .next t => some (f t)
  | .fault _ => none
  | .refused _ => none

/-- Whether the machine refused, and why. -/
def refusal : Host.Outcome State Fault Refusal → Option Refusal
  | .next _ => none
  | .fault _ => none
  | .refused r => some r

/-- TESTGLYPH of 95_test_vectors.md: invented inputs, not the font. -/
def testTable : GlyphTable := fun n =>
  if n = 1 then some #v[0x00, 0x00, 0x00, 0x00, 0x00, 0x00, 0x00, 0x00]
  else if n = 34 then some #v[0x01, 0x03, 0x07, 0x0F, 0x1F, 0x3F, 0x7F, 0xFF]
  else if n = 35 then some #v[0x10, 0x20, 0x40, 0x80, 0x08, 0x04, 0x02, 0x01]
  else none

/-! ### Well-formedness: an ill-formed term for each check -/

theorem test_wf_refuses_row_below : (Instr.setpx (-129) 0 none).wf = false := by decide
theorem test_wf_refuses_row_above : (Instr.setpx 128 0 none).wf = false := by decide
theorem test_wf_refuses_col_below : (Instr.setpx 0 (-129) none).wf = false := by decide
theorem test_wf_refuses_col_above : (Instr.setpx 0 128 none).wf = false := by decide
theorem test_wf_accepts_field_ends : (Instr.setpx (-128) 127 (some .red)).wf = true := by decide

/-! ### Decoding: words written out bit by bit from the formats of R83 -/

theorem test_decode_setpx : decode 0b00010011000000000000001000000101#32 = .ok (.setpx 2 5 (some .green)) := by decide
theorem test_decode_setpx_negative : decode 0b00010001000000001111111100000011#32 = .ok (.setpx (-1) 3 (some .red)) := by decide
theorem test_decode_setpx_absent : decode 0x16000707#32 = .ok (.setpx 7 7 none) := by decide
theorem test_decode_wrrow : decode 0b00100000000001000000000010100101#32 = .ok (.wrrow 4 0x00A5#16) := by decide
theorem test_decode_clr : decode 0b00110000000000000000000000000001#32 = .ok (.clr true) := by decide
theorem test_decode_wrdisp : decode 0b01000000000000000000000000000000#32 = .ok .wrdisp := by decide
theorem test_decode_getbuf : decode 0b01010000000000000000000000000000#32 = .ok .getbuf := by decide
theorem test_decode_reserved_opcode : decode 0x60000000#32 = .error (.opcode 6) := by decide
theorem test_decode_reserved_bits : decode 0x18000000#32 = .error (.mustBeZero 1) := by decide
theorem test_opcode_map_disjoint :
    opcodeMap.Pairwise fun a b => a.matchBits &&& a.mask &&& b.mask ≠ b.matchBits &&& a.mask &&& b.mask := by decide

/-! ### The commands (95_test_vectors.md 2.1 to 2.6) -/

theorem test_setpx_red_joins : after State.fb (exec (.setpx 3 4 (some .red)) (withRows #v[0, 0, 0, 0xA55A, 0, 0, 0, 0]))
    = some #v[0, 0, 0, 0xB55A, 0, 0, 0, 0] := by decide
theorem test_setpx_column_eight : after State.fb (exec (.setpx 0 8 (some .red)) (withRows #v[0xA55A, 0, 0, 0, 0, 0, 0, 0]))
    = some #v[0xA55A, 0, 0, 0, 0, 0, 0, 0] := by decide
theorem test_wrrow_clears_red : after State.fb (exec (.wrrow 4 0x00A5#16) (withRows #v[0, 0, 0, 0, 0xFFFF, 0, 0, 0]))
    = some #v[0, 0, 0, 0, 0x00A5, 0, 0, 0] := by decide
theorem test_clr_flushes_zeroes : after State.sinkLog (exec (.clr true) (withRows #v[0x0101, 0, 0, 0x8080, 0, 0, 0, 0xFFFF]))
    = some [⟨0, [0, 0, 0, 0, 0, 0, 0, 0, 0, 0, 0, 0, 0, 0, 0, 0]⟩] := by decide
theorem test_wrdisp_frame : after State.sinkLog (exec .wrdisp (withRows #v[0x0001, 0x0200, 0x0404, 0x0008, 0x1000, 0x2020, 0x0040, 0x8000]))
    = some [⟨0, [0x01, 0x00, 0x00, 0x02, 0x04, 0x04, 0x08, 0x00, 0x00, 0x10, 0x20, 0x20, 0x40, 0x00, 0x00, 0x80]⟩] := by decide
theorem test_getbuf_snapshot : after State.responses (exec .getbuf (withRows #v[0, 0x0100, 0, 0, 0, 0, 0, 0]))
    = some [#v[0, 0x0100, 0, 0, 0, 0, 0, 0]] := by decide
theorem test_response_word : responseWord #v[0x1234, 0, 0, 0, 0, 0, 0, 0x8001] = 0x80010000000000000000000000001234#128 := by rfl
theorem test_color_at : colorAt 0x2020#16 5 = .yellow := by decide

/-! ### The host's macros (95_test_vectors.md 2.8, 2.9, P4) -/

set_option maxRecDepth 4000 in
theorem test_fix : fix 0x12#8 = 0x48#8 := by decide
theorem test_win : win 0x3C#8 0x81#8 3 = 0x27#32 := by decide
set_option maxRecDepth 4000 in
theorem test_scroll_counts : (scrollSteps [Vector.replicate 8 0, Vector.replicate 8 0] 7).length = 137 := by decide
set_option maxRecDepth 4000 in
theorem test_text_cycle : ((HostMacro.text [66] 100).expand testTable).toOption
    = some [.issue 0x30000000#32, .issue 0x20000008#32, .issue 0x20010004#32, .issue 0x20020002#32, .issue 0x20030001#32,
      .issue 0x20040010#32, .issue 0x20050020#32, .issue 0x20060040#32, .issue 0x20070080#32, .issue 0x40000000#32,
      .hold 100, .issue 0x30000001#32, .hold 50] := by decide
theorem test_assemble_setpx : assemble [.word "setpx", .num 300, .num 0, .word "red"] = some (.issue 0x11007F00#32) := by decide
theorem test_assemble_scroll : assemble [.word "scroll", .text [65], .num 80] = some (.invoke (.scroll [65] 80)) := by decide

theorem test_write_string : writeString [65] 80 true = .scroll [65] 80 ∧ writeString [72, 73] 100 false = .text [72, 73] 100 := by decide

/-! ### The fixed functions on one word -/

theorem test_table_word : decodeTableWord 32 0x13000205 = some (.setpx 2 5 (some .green)) := by decide
theorem test_placed_word_runs : after State.fb (step (State.reset.withFetchWord 32 0x13000205))
    = some #v[0, 0, 0x0020, 0, 0, 0, 0, 0] := by decide
theorem test_reserved_refused : refusal (step (State.reset.withFetchWord 32 0)) = some (.reservedWord (.opcode 0)) := by decide

/-! ### Witnesses: the hypotheses of each statement can be met -/

theorem witness_StepRunsDecodedCommand : ∃ s cw i rest, State.pending s = HostStep.issue cw :: rest ∧ decode cw = .ok i :=
  ⟨withSteps [.issue 0x40000000#32], 0x40000000#32, .wrdisp, [], rfl, by decide⟩

theorem witness_StepRefusesReservedWord : ∃ s cw e rest, State.pending s = HostStep.issue cw :: rest ∧ decode cw = .error e :=
  ⟨withSteps [.issue 0#32], 0#32, .opcode 0, [], rfl, by decide⟩

theorem witness_EmptyPortWaits : State.reset.pending = [] := rfl

theorem witness_OpcodeMapDecidesTheCommand : (0x17FFFF00#32 &&& 0xF8FF0000#32 ≠ 0x10000000#32) ∧
    0x1700FFFF#32 &&& 0xF8FF0000#32 = 0x10000000#32 ∧ 0x2007FFFF#32 &&& 0xFFF80000#32 = 0x20000000#32 ∧
    0x30000001#32 &&& 0xFFFFFFFE#32 = 0x30000000#32 ∧ 0x40000000#32 &&& 0xFFFFFFFF#32 = 0x40000000#32 ∧
    0x50000000#32 &&& 0xFFFFFFFF#32 = 0x50000000#32 := by decide

theorem witness_PixelFieldsDecode : colorOfCode 0 = some .off ∧ colorOfCode 3 = some .green ∧ 4 ≤ (4#3).toNat
    ∧ colorOfCode 4 = none ∧ colorOfCode 7 = none := by decide

theorem witness_DecodeOfEncodeIsTheCommand : (Instr.setpx (-128) 127 none).wf = true := by decide

theorem witness_EncodeOfDecodeIsTheWord : decode 0x1300807F#32 = .ok (.setpx (-128) 127 (some .green))
    ∧ decode 0x14000000#32 = .ok (.setpx 0 0 none) := by decide

/-- Each way an operand can be bad, at the value next to the range. -/
theorem witness_SetpxFoldsOnePixel : ((-1 : Int) < 0) ∧ ((7 : Int) < 8) ∧ coordinate (-1) = none ∧ coordinate 8 = none
    ∧ coordinate 0 = some 0 ∧ coordinate 7 = some 7 := by decide

theorem witness_SetpxTouchesTwoBitsOfOneRow : (1 : Fin 8) ≠ 0 ∧ (15 : Nat) < 16 ∧ (15 : Nat) ≠ (0 : Fin 8).val
    ∧ (15 : Nat) ≠ (0 : Fin 8).val + 8 := by decide

theorem witness_SetpxAlgebra : Color.green ≠ .off ∧ Color.red ≠ .off ∧ ((0 : Fin 8), (0 : Fin 8)) ≠ (0, 1) := by decide

theorem witness_FrameIsABijection : (frameBytes #v[0x1234, 0, 0, 0, 0, 0, 0, 0x8001]).length = 16 := by decide

theorem witness_ARowChangesTwoWireBytes : (13 : Nat) / 2 ≠ (7 : Fin 8).val := by decide

theorem witness_CommandsDependOnTheRowsAlone :
    State.reset.fb = ({ State.reset with sinkLog := [⟨0, zeroFrame⟩], brightness := 15 } : State).fb := rfl

theorem witness_EveryStepKeepsTheInvariant : ∃ s t, State.inv s = true ∧ stepWith testTable [] s = .next t ∧ t ≠ s :=
  ⟨withSteps [.issue 0x40000000#32], ({ State.reset with sinkLog := [⟨0, frame zeroBuffer⟩] } : State),
    by decide, rfl, by decide⟩

theorem witness_OnlyCommandsChangeTheBuffer : ∃ s t h rest, State.pending s = h :: rest
    ∧ (∀ cw, h ≠ HostStep.issue cw) ∧ h ≠ .resetInput ∧ stepWith testTable [] s = .next t :=
  ⟨withSteps [.hold 50], { State.reset with holdTrace := [50] }, .hold 50, [], rfl, by simp, by decide, rfl⟩

set_option maxRecDepth 4000 in
theorem witness_EveryAdmissibleRunEnds : ∀ h ∈ ([.issue 0x50000000#32, .hold 0, .invoke (.text [65, 66] 100), .setBrightness 99,
    .setBlinkRate 2, .resetInput] : List HostStep), h.admissible testTable [2] = true := by decide

theorem witness_DeviceShowsTheDeliveredFlush : ∃ env : SinkEnvironment, env.delivers 0 = true ∧ env.delivers 1 = false :=
  ⟨⟨fun n => n == 0, fun _ => [], []⟩, rfl, rfl⟩

theorem witness_UnflushedChangesAreInvisible : Instr.clr false ≠ .clr true ∧ Instr.clr false ≠ .wrdisp := by decide

theorem witness_UnserialisedIssuersAreRefused : (withSteps [.concurrentIssue 0x40000000#32 0x50000000#32]).pending
    = [HostStep.concurrentIssue 0x40000000#32 0x50000000#32] := rfl

theorem witness_ResetInputClearsTheBlock : (withSteps [.resetInput, .hold 1]).pending = [HostStep.resetInput, .hold 1] := rfl

theorem witness_BrightnessIsClamped : (withSteps [.setBrightness 16]).pending = [HostStep.setBrightness 16]
    ∧ clampBrightness (-1) = 0 ∧ clampBrightness 0 = 0 ∧ clampBrightness 15 = 15 ∧ clampBrightness 16 = 15 := by decide

theorem witness_BlinkRateIsValidated : (withSteps [.setBlinkRate 3]).pending = [HostStep.setBlinkRate 3]
    ∧ 3 ∈ [1, 3] ∧ 3 ∉ [1, 2] := by decide

theorem witness_InstancesDoNotInteract : ∃ (sys sys' : System) (k : Fin sys.length), System.stepAt sys k = .next sys' :=
  ⟨[construct true 1 2, construct false 1 2], [construct true 1 2, construct false 1 2], 1, rfl⟩

theorem witness_FrameByteOrder : (7 : Nat) < 8 := by decide

theorem witness_FixReversesTheByte : (7 : Nat) < 8 := by decide

theorem witness_FixUpReversesInsideBytes : (3 : Nat) < 4 ∧ (7 : Nat) < 8 := by decide

/-- Both sides of the window's boundary, at the last column and at shift 7. -/
theorem witness_ScrollWindowIsTheStrip : (0 : Nat) + (7 : Fin 8).val ≤ 7 ∧ ¬ (7 : Nat) + (7 : Fin 8).val ≤ 7
    ∧ (win 0x80#8 0x01#8 7) = 0x03#32 := by decide

theorem witness_HoldIsRecorded : (withSteps [.hold 0]).pending = [HostStep.hold 0] := rfl

/-- A pending macro and a pending command, both with a meaning, and the step that expands the macro. -/
theorem witness_EveryStepKeepsPendingAdmissible : ∃ s t, State.pending s = [.invoke (.glyph 65), .issue 0x40000000#32]
    ∧ (∀ h ∈ State.pending s, HostStep.admissible testTable [] h = true) ∧ stepWith testTable [] s = .next t :=
  ⟨withSteps [.invoke (.glyph 65), .issue 0x40000000#32], _, rfl, by decide, rfl⟩

theorem test_negative_hold_stands_for_nothing : assemble [.word "hold", .num (-1)] = none
    ∧ assemble [.word "hold", .num 0] = some (.hold 0) := by decide

theorem test_nominal_wait : ({ State.reset with holdTrace := [100, 50] } : State).nominalWait (3 : Nat) = 450 := by decide

/-- The character 'A' of 95_test_vectors.md meets the precondition. -/
theorem testTable_A : glyphIs testTable 65 #v[0x01, 0x03, 0x07, 0x0F, 0x1F, 0x3F, 0x7F, 0xFF] :=
  ⟨by decide, by decide, rfl⟩

theorem testTable_space : glyphIs testTable 32 #v[0x00, 0x00, 0x00, 0x00, 0x00, 0x00, 0x00, 0x00] :=
  ⟨by decide, by decide, rfl⟩

theorem witness_GlyphWritesTheFixedUpRows : ∃ s ch g rest, glyphIs testTable ch g
    ∧ State.pending s = .invoke (.glyph ch) :: rest :=
  ⟨withSteps [.invoke (.glyph 65)], 65, _, [], testTable_A, rfl⟩

theorem witness_TextShowsEachGlyphThenBlank : ∃ s chars gs, ∃ d : Nat, ∃ rest, List.Forall₂ (glyphIs testTable) chars gs
    ∧ State.pending s = .invoke (.text chars (d : Int)) :: rest :=
  ⟨withSteps [.invoke (.text [65] 100)], [65], _, 100, [], .cons testTable_A .nil, rfl⟩

theorem witness_ScrollSendsEveryIntermediateFrame : ∃ s chars gs, ∃ d : Nat, ∃ rest,
    List.Forall₂ (glyphIs testTable) ([32] ++ chars ++ [32]) gs ∧ State.pending s = .invoke (.scroll chars (d : Int)) :: rest :=
  ⟨withSteps [.invoke (.scroll [65] 80)], [65], _, 80, [], .cons testTable_space (.cons testTable_A (.cons testTable_space .nil)), rfl⟩

/-- A character below the range, one above it, and a printable one the table leaves out. -/
theorem witness_BadCharactersAreRefused : ¬ (32 ≤ 31 ∧ 31 ≤ 126) ∧ ¬ (32 ≤ 127 ∧ 127 ≤ 126) ∧ testTable (67 - 31) = none
    ∧ refusal (stepWith testTable [] (withSteps [.invoke (.glyph 31)])) = some (.notPrintable 31)
    ∧ refusal (stepWith testTable [] (withSteps [.invoke (.text [65, 67] 1)])) = some (.glyphUndefined 67) := by decide

theorem witness_NegativeDurationsAreRefused : (-1 : Int) < 0
    ∧ (withSteps [.invoke (.text [] (-1))]).pending = [HostStep.invoke (.text [] (-1))]
    ∧ (withSteps [.invoke (.scroll [] (-1))]).pending = [HostStep.invoke (.scroll [] (-1))] := by decide

end Sys2Proof.Tests
end

section
/-! The byte order of a frame: what stands at an even and at an odd wire byte. -/

namespace Sys2Proof.Machine

/-- The low half of a row holds its bits 7..0 (R11). -/
theorem lo8_getLsbD (v : Row) {j : Nat} (hj : j < 8) : (lo8 v).getLsbD j = v.getLsbD j := by
  simp [lo8, hj]

/-- The high half of a row holds its bits 15..8 (R11). -/
theorem hi8_getLsbD (v : Row) {j : Nat} (hj : j < 8) : (hi8 v).getLsbD j = v.getLsbD (j + 8) := by
  simp [hi8, hj, Nat.add_comm]

/-- `frame_getElem` for the total read by which the statements name a wire byte. -/
theorem frame_getD (fb : FrameBuffer) (k : Fin 16) : (frame fb).getD k.val 0 = mux fb k := by
  rw [List.getD_eq_getElem _ _ (by simp), frame_getElem]

/-- Wire byte `2i` is the low half of row `i` (R51, R151). -/
theorem frame_getD_even (fb : FrameBuffer) (i : Fin 8) : (frame fb).getD (2 * i.val) 0 = lo8 fb[i] := by
  rw [← mux_even, ← frame_getD]

/-- Wire byte `2i + 1` is the high half of row `i` (R51, R151). -/
theorem frame_getD_odd (fb : FrameBuffer) (i : Fin 8) : (frame fb).getD (2 * i.val + 1) 0 = hi8 fb[i] := by
  rw [← mux_odd, ← frame_getD]

/-- Settles O27: the multiplexer puts the low half of row `i` at byte `2i` and the high half at `2i + 1`. -/
theorem frameByteOrder : Obligations.FrameByteOrder := by
  intro fb
  refine ⟨frame_length fb, fun i j hj => ⟨?_, ?_⟩⟩
  · rw [frame_getD_even, lo8_getLsbD _ hj]
  · rw [frame_getD_odd, hi8_getLsbD _ hj]

end Sys2Proof.Machine
end

section
/-! The pixel combiner: what `SETPX` makes of its row, read back bit by bit and as a colour. -/

namespace Sys2Proof.Machine

open Sys2Proof.Spec

/-- `SETPX` with valid operands folds its one row (R110). -/
theorem exec_setpx_valid (r c : Fin 8) (k : Color) (s : State) :
    exec (.setpx (r.val : Int) (c.val : Int) (some k)) s
      = .next (s.writeRow r (foldPixel c k (s.readRow r))) := by
  simp only [exec, execSetpx, coordinate_coe]

/-- `SETPX` without both coordinates and a colour is a no-op (R112). -/
theorem exec_setpx_noop {row col : Int} {color : Option Color} (s : State)
    (h : coordinate row = none ∨ coordinate col = none ∨ color = none) :
    exec (.setpx row col color) s = .next s := by
  simp only [exec, execSetpx]
  split
  · next hr hc => simp [hr, hc] at h
  · rfl

/-- The row that `SETPX` names, after it. -/
theorem exec_setpx_row (r c : Fin 8) (k : Color) (s : State) :
    ∃ t, exec (.setpx (r.val : Int) (c.val : Int) (some k)) s = .next t
      ∧ t.fb[r] = foldPixel c k s.fb[r] :=
  ⟨_, exec_setpx_valid r c k s, s.readRow_writeRow r _⟩

/-- The model's fold is R110's formula. -/
theorem foldPixel_eq_foldedRow (c : Fin 8) (k : Color) (v : Row) : foldPixel c k v = foldedRow c v k := by
  cases k <;> rfl

/-- The green bit of a folded pixel: OFF clears it, RED keeps it, the others set it (R110, R114, R115). -/
theorem greenLit_foldPixel (c : Fin 8) (k : Color) (v : Row) :
    greenLit (foldPixel c k v) c = (k != .off && (greenLit v c || k != .red)) := by
  rw [greenLit, foldPixel_getLsbD c k v _ (by omega)]
  cases k <;> simp [greenLit]

/-- The red bit of a folded pixel: OFF clears it, GREEN keeps it, the others set it (R110, R114, R115). -/
theorem redLit_foldPixel (c : Fin 8) (k : Color) (v : Row) :
    redLit (foldPixel c k v) c = (k != .off && (redLit v c || k != .green)) := by
  rw [redLit, foldPixel_getLsbD c k v _ (by omega)]
  cases k <;> simp [redLit]

/-- The colour of a folded pixel is the transition table's (R113). -/
theorem colorAt_foldPixel (c : Fin 8) (k : Color) (v : Row) :
    colorAt (foldPixel c k v) c = afterColor (colorAt v c) (some k) := by
  simp only [colorAt, greenLit_foldPixel, redLit_foldPixel]
  cases redLit v c <;> cases greenLit v c <;> cases k <;> rfl

/-- Settles O16: valid operands fold the one row by R110's formula, a bad operand is a no-op. -/
theorem setpxFoldsOnePixel : Obligations.SetpxFoldsOnePixel := by
  refine ⟨fun s r c k => ?_, fun s row col color h => exec_setpx_noop s ?_⟩
  · rw [exec_setpx_valid, foldPixel_eq_foldedRow]
    rfl
  · simpa only [coordinate_eq_none_iff, or_assoc] using h

/-- Settles O17: an absent colour keeps the pixel, a colour moves it along the transition table. -/
theorem setpxFollowsTransitionTable : Obligations.SetpxFollowsTransitionTable := by
  intro s r c color
  cases color with
  | none => exact ⟨s, exec_setpx_noop s (.inr (.inr rfl)), rfl⟩
  | some k =>
    obtain ⟨t, ht, hrow⟩ := exec_setpx_row r c k s
    exact ⟨t, ht, by rw [hrow, colorAt_foldPixel]⟩

/-- Settles O18: a row folded with OFF has neither plane's bit of the pixel. -/
theorem setpxOffClearsBothPlanes : Obligations.SetpxOffClearsBothPlanes := by
  intro s r c
  obtain ⟨t, ht, hrow⟩ := exec_setpx_row r c .off s
  refine ⟨t, ht, ?_, ?_⟩ <;> rw [hrow]
  · exact greenLit_foldPixel c .off s.fb[r]
  · exact redLit_foldPixel c .off s.fb[r]

end Sys2Proof.Machine
end

section
/-! The buffer commands: what `CLR` makes of the rows and of the sink log. -/

namespace Sys2Proof.Machine

open Sys2Proof.Spec

/-- `CLR 0` zeroes the rows and does not flush (R130). -/
theorem exec_clr_false (s : State) : exec (.clr false) s = .next s.clearRows := rfl

/-- `CLR 1` zeroes the rows first, so that its flush sees the zeroed buffer (R130). -/
theorem exec_clr_true (s : State) : exec (.clr true) s = .next s.clearRows.flush := rfl

/-- Every wire byte of the zero buffer is zero: both halves of a zero row are. -/
theorem mux_zeroBuffer (k : Fin 16) : mux zeroBuffer k = 0 := by
  unfold mux
  split <;> simp [zeroBuffer, lo8, hi8]

/-- The frame of the zero buffer is 16 zero bytes (R130). -/
theorem frame_zeroBuffer : frame zeroBuffer = zeroFrame := by
  refine List.eq_replicate_iff.2 ⟨frame_length _, fun b hb => ?_⟩
  obtain ⟨k, -, rfl⟩ := List.mem_map.1 hb
  exact mux_zeroBuffer k

/-- Settles O22: `CLR` zeroes the rows, and the flush of `CLR 1` appends the zero buffer's frame. -/
theorem clrZeroesThenFlushes : Obligations.ClrZeroesThenFlushes := by
  refine fun s => ⟨exec_clr_false s, ?_⟩
  rw [exec_clr_true, ← frame_zeroBuffer]
  rfl

end Sys2Proof.Machine
end

section
/-! The flush command: what `WRDISP` sends, byte by byte. -/

namespace Sys2Proof.Machine

open Sys2Proof.Spec

/-- `WRDISP` is one flush of the buffer as it stands (R150). -/
theorem exec_wrdisp (s : State) : exec .wrdisp s = .next s.flush := rfl

/-- The multiplexer's frame is the list of the row halves, low before high (R51, R151): at each of the
sixteen wire indices it selects the half that the list holds there. -/
theorem frame_eq_frameBytes (fb : FrameBuffer) : frame fb = frameBytes fb := rfl

/-- Settles O24: the one entry a flush appends holds the frame, whose bytes are the row halves in order. -/
theorem wrdispAppendsTheFrame : Obligations.WrdispAppendsTheFrame := by
  intro s
  rw [exec_wrdisp, ← frame_eq_frameBytes]
  rfl

end Sys2Proof.Machine
end

section
/-! The glyph fix-up: the 32-bit reversal and byte swap reverses the bits inside each byte, so on a glyph
row it is the byte's own reversal. -/

namespace Sys2Proof.Machine

/-- Bit `j` of a reversed word, for every width. -/
theorem reverse_getLsbD {n : Nat} (x : BitVec n) {j : Nat} (hj : j < n) :
    x.reverse.getLsbD j = x.getLsbD (n - 1 - j) := by
  rw [BitVec.getLsbD_reverse, BitVec.getMsbD_eq_getLsbD, decide_eq_true hj, Bool.true_and]

/-- The 32-bit reversal, bit by bit (R11). -/
theorem rev32_getLsbD (w : BitVec 32) {j : Nat} (hj : j < 32) : (rev32 w).getLsbD j = w.getLsbD (31 - j) :=
  reverse_getLsbD w hj

/-- The byte reversal, bit by bit (R11). -/
theorem rev8_getLsbD (v : Byte) {i : Nat} (hi : i < 8) : (rev8 v).getLsbD i = v.getLsbD (7 - i) :=
  reverse_getLsbD v hi

/-- A byte placed at byte `m` of a 32-bit word shows at that byte, and every other byte is zero. -/
theorem placedByte_getLsbD (b : Byte) {m k i : Nat} (hk : k < 4) (hi : i < 8) :
    (b.setWidth 32 <<< (8 * m)).getLsbD (8 * k + i) = (decide (k = m) && b.getLsbD i) := by
  rw [BitVec.getLsbD_shiftLeft, BitVec.getLsbD_setWidth]
  rcases lt_trichotomy k m with h | rfl | h
  · simp [h.ne, (by omega : 8 * k + i < 8 * m)]
  · simp [(by omega : 8 * k + i < 32), (by omega : i < 32)]
  · simp [h.ne', BitVec.getLsbD_of_ge b _ (by omega : 8 ≤ 8 * k + i - 8 * m)]

/-- The byte swap, bit by bit: byte `k` of the result is byte `3 - k` of the word (R11). -/
theorem bswap32_getLsbD (w : BitVec 32) {k i : Nat} (hk : k < 4) (hi : i < 8) :
    (bswap32 w).getLsbD (8 * k + i) = w.getLsbD (8 * (3 - k) + i) := by
  have placed (b : Byte) (m : Nat) := placedByte_getLsbD b (m := m) hk hi
  rw [bswap32, BitVec.getLsbD_or, BitVec.getLsbD_or, BitVec.getLsbD_or, placed _ 3, placed _ 2, placed _ 1,
    ← BitVec.shiftLeft_zero (BitVec.setWidth 32 _), placed _ 0]
  interval_cases k <;> simp [hi]

/-- The two steps together keep each byte in its place and reverse the bits inside it. -/
theorem bswap32_rev32_getLsbD (w : BitVec 32) {k i : Nat} (hk : k < 4) (hi : i < 8) :
    (bswap32 (rev32 w)).getLsbD (8 * k + i) = w.getLsbD (8 * k + (7 - i)) := by
  rw [bswap32_getLsbD _ hk hi, rev32_getLsbD _ (by omega)]
  congr 1
  omega

/-- On a zero extension the two steps reverse the low byte and leave the three zero bytes zero (R180). -/
theorem bswap32_rev32_setWidth (v : Byte) : bswap32 (rev32 (v.setWidth 32)) = (rev8 v).setWidth 32 := by
  refine BitVec.eq_of_getLsbD_eq fun j hj => ?_
  obtain ⟨k, i, hi, rfl⟩ : ∃ k i, i < 8 ∧ j = 8 * k + i := ⟨j / 8, j % 8, by omega, by omega⟩
  rw [bswap32_rev32_getLsbD _ (by omega) hi, BitVec.getLsbD_setWidth, BitVec.getLsbD_setWidth]
  rcases Nat.eq_zero_or_pos k with rfl | hk
  · rw [Nat.mul_zero, Nat.zero_add, Nat.zero_add, rev8_getLsbD v hi, decide_eq_true (by omega : 7 - i < 32),
      decide_eq_true (by omega : i < 32)]
  · rw [BitVec.getLsbD_of_ge v _ (by omega), BitVec.getLsbD_of_ge (rev8 v) _ (by omega), Bool.and_false,
      Bool.and_false]

/-- `Fix(v) = rev8(v)`: the mask and the truncation to a byte drop only zero bits (R180). -/
theorem fix_eq_rev8 (v : Byte) : fix v = rev8 v := by
  rw [fix, bswap32_rev32_setWidth, BitVec.setWidth_and, BitVec.setWidth_setWidth_of_le _ (by decide),
    BitVec.setWidth_eq]
  exact BitVec.and_allOnes

/-- Settles O46: `Fix` is the byte reversal, by `fix_eq_rev8`, and so are the two 32-bit steps. -/
theorem fixReversesTheByte : Obligations.FixReversesTheByte := by
  refine fun v => ⟨?_, fun i hi => ?_⟩
  · rw [fix_eq_rev8, bswap32_rev32_setWidth]
  · rw [fix_eq_rev8, rev8_getLsbD v hi]

end Sys2Proof.Machine
end

section
/-! Completion: every command answers a next state, `SETPX` with bad operands included. -/

namespace Sys2Proof.Machine

/-- `WRROW` assigns its row (R134). -/
theorem exec_wrrow (r : Fin 8) (v : Row) (s : State) : exec (.wrrow r v) s = .next (s.writeRow r v) := rfl

/-- `GETBUF` answers with a snapshot of the rows (R138). -/
theorem exec_getbuf (s : State) : exec .getbuf s = .next s.respond := rfl

/-- `SETPX` completes: a bad row, column or colour makes it a no-op (R112), and otherwise it folds its row (R110). -/
theorem exec_setpx_completes (row col : Int) (color : Option Color) (s : State) :
    ∃ t, exec (.setpx row col color) s = .next t := by
  rcases hrow : coordinate row with _ | r
  · exact ⟨s, exec_setpx_noop s (.inl hrow)⟩
  rcases hcol : coordinate col with _ | c
  · exact ⟨s, exec_setpx_noop s (.inr (.inl hcol))⟩
  cases color with
  | none => exact ⟨s, exec_setpx_noop s (.inr (.inr rfl))⟩
  | some k =>
    obtain rfl := (coordinate_eq_some_iff row r).1 hrow
    obtain rfl := (coordinate_eq_some_iff col c).1 hcol
    exact ⟨_, exec_setpx_valid r c k s⟩

/-- Settles O32: each command's equation names its next state, and `SETPX` has one for every operand. -/
theorem everyCommandCompletes : Obligations.EveryCommandCompletes := by
  intro i s
  cases i with
  | setpx row col color => exact exec_setpx_completes row col color s
  | wrrow r v => exact ⟨_, exec_wrrow r v s⟩
  | clr flush =>
    cases flush with
    | false => exact ⟨_, exec_clr_false s⟩
    | true => exact ⟨_, exec_clr_true s⟩
  | wrdisp => exact ⟨_, exec_wrdisp s⟩
  | getbuf => exact ⟨_, exec_getbuf s⟩

end Sys2Proof.Machine
end

section
/-! The command word, format by format: the words of each format, what they decode to, and that every word
that decodes is one of them. -/

namespace Sys2Proof

/-- The word of format P with these fields and every must-be-zero bit zero (R83). -/
def pixelWord (k : BitVec 3) (r c : Byte) : CommandWord :=
  0x10000000#32 ||| k.setWidth 32 <<< 24 ||| r.setWidth 32 <<< 8 ||| c.setWidth 32

/-- The word of format R with these fields and every must-be-zero bit zero (R83). -/
def rowWord (r : BitVec 3) (v : Row) : CommandWord := 0x20000000#32 ||| r.setWidth 32 <<< 16 ||| v.setWidth 32

/-- The word of format C with this flush bit and every must-be-zero bit zero (R83). -/
def clearWord (f : BitVec 1) : CommandWord := 0x30000000#32 ||| f.setWidth 32

/-! ### The fields of each format's word, and what it decodes to -/

theorem opField_pixelWord (k : BitVec 3) (r c : Byte) : opField (pixelWord k r c) = 1 := by
  ext i hi
  simp only [opField, pixelWord]
  interval_cases i <;> simp

theorem pixelWord_reserved (k : BitVec 3) (r c : Byte) :
    (pixelWord k r c).extractLsb' 27 1 = 0 ∧ (pixelWord k r c).extractLsb' 16 8 = 0 := by
  constructor <;> ext i hi <;> simp only [pixelWord] <;> interval_cases i <;> simp

theorem pixelWord_code (k : BitVec 3) (r c : Byte) : (pixelWord k r c).extractLsb' 24 3 = k := by
  ext i hi
  simp only [pixelWord]
  interval_cases i <;> simp

theorem pixelWord_row (k : BitVec 3) (r c : Byte) : (pixelWord k r c).extractLsb' 8 8 = r := by
  ext i hi
  simp only [pixelWord]
  interval_cases i <;> simp

theorem pixelWord_col (k : BitVec 3) (r c : Byte) : (pixelWord k r c).extractLsb' 0 8 = c := by
  ext i hi
  simp only [pixelWord]
  interval_cases i <;> simp

theorem decode_pixelWord (k : BitVec 3) (r c : Byte) :
    decode (pixelWord k r c) = .ok (.setpx r.toInt c.toInt (colorOfCode k)) := by
  rw [decode, if_pos (opField_pixelWord k r c), decodePixel, if_pos (pixelWord_reserved k r c),
    pixelWord_code, pixelWord_row, pixelWord_col]

theorem opField_rowWord (r : BitVec 3) (v : Row) : opField (rowWord r v) = 2 := by
  ext i hi
  simp only [opField, rowWord]
  interval_cases i <;> simp

theorem rowWord_reserved (r : BitVec 3) (v : Row) : (rowWord r v).extractLsb' 19 9 = 0 := by
  ext i hi
  simp only [rowWord]
  interval_cases i <;> simp

theorem rowWord_row (r : BitVec 3) (v : Row) : (rowWord r v).extractLsb' 16 3 = r := by
  ext i hi
  simp only [rowWord]
  interval_cases i <;> simp

theorem rowWord_value (r : BitVec 3) (v : Row) : (rowWord r v).extractLsb' 0 16 = v := by
  ext i hi
  simp only [rowWord]
  interval_cases i <;> simp

theorem decode_rowWord (r : BitVec 3) (v : Row) : decode (rowWord r v) = .ok (.wrrow r.toFin v) := by
  rw [decode, opField_rowWord, if_neg (by decide), if_pos rfl, decodeRow, if_pos (rowWord_reserved r v),
    rowWord_row, rowWord_value]

theorem clearWord_flush (f : BitVec 1) : (clearWord f).getLsbD 0 = (f == 1#1) := by
  obtain rfl | rfl : f = 0#1 ∨ f = 1#1 := BitVec.eq_zero_or_eq_one f
  · rfl
  · rfl

theorem decode_clearWord (f : BitVec 1) : decode (clearWord f) = .ok (.clr (f == 1#1)) := by
  obtain rfl | rfl : f = 0#1 ∨ f = 1#1 := BitVec.eq_zero_or_eq_one f
  · decide
  · decide

theorem decode_wrdispWord : decode 0x40000000#32 = .ok .wrdisp := by decide

theorem decode_getbufWord : decode 0x50000000#32 = .ok .getbuf := by decide

/-! ### Every word that decodes is a format's word -/

/-- A word is the join of its format P fields (R83). -/
theorem eq_join_pixel (cw : CommandWord) :
    cw = (opField cw).setWidth 32 <<< 28 ||| (cw.extractLsb' 27 1).setWidth 32 <<< 27
      ||| (cw.extractLsb' 24 3).setWidth 32 <<< 24 ||| (cw.extractLsb' 16 8).setWidth 32 <<< 16
      ||| (cw.extractLsb' 8 8).setWidth 32 <<< 8 ||| (cw.extractLsb' 0 8).setWidth 32 := by
  ext i hi
  simp only [opField]
  interval_cases i <;> simp

/-- A word is the join of its format R fields (R83). -/
theorem eq_join_row (cw : CommandWord) :
    cw = (opField cw).setWidth 32 <<< 28 ||| (cw.extractLsb' 19 9).setWidth 32 <<< 19
      ||| (cw.extractLsb' 16 3).setWidth 32 <<< 16 ||| (cw.extractLsb' 0 16).setWidth 32 := by
  ext i hi
  simp only [opField]
  interval_cases i <;> simp

/-- A word is the join of its format C fields (R83). -/
theorem eq_join_clear (cw : CommandWord) :
    cw = (opField cw).setWidth 32 <<< 28 ||| (cw.extractLsb' 1 27).setWidth 32 <<< 1
      ||| (cw.extractLsb' 0 1).setWidth 32 := by
  ext i hi
  simp only [opField]
  interval_cases i <;> simp

/-- A word is the join of its format N fields (R83). -/
theorem eq_join_bare (cw : CommandWord) :
    cw = (opField cw).setWidth 32 <<< 28 ||| (cw.extractLsb' 0 28).setWidth 32 := by
  ext i hi
  simp only [opField]
  interval_cases i <;> simp

theorem decodePixel_ok {cw : CommandWord} {i : Instr} (hop : opField cw = 1) (h : decodePixel cw = .ok i) :
    ∃ k r c, cw = pixelWord k r c ∧ i = .setpx r.toInt c.toInt (colorOfCode k) := by
  unfold decodePixel at h
  split at h
  · next hzero =>
    cases h
    refine ⟨_, _, _, ?_, rfl⟩
    conv_lhs => rw [eq_join_pixel cw, hop, hzero.1, hzero.2]
    simp [pixelWord]
  · cases h

theorem decodeRow_ok {cw : CommandWord} {i : Instr} (hop : opField cw = 2) (h : decodeRow cw = .ok i) :
    ∃ r v, cw = rowWord r v ∧ i = .wrrow r.toFin v := by
  unfold decodeRow at h
  split at h
  · next hzero =>
    cases h
    refine ⟨_, _, ?_, rfl⟩
    conv_lhs => rw [eq_join_row cw, hop, hzero]
    simp [rowWord]
  · cases h

theorem decodeClear_ok {cw : CommandWord} {i : Instr} (hop : opField cw = 3) (h : decodeClear cw = .ok i) :
    ∃ f, cw = clearWord f ∧ i = .clr (f == 1#1) := by
  unfold decodeClear at h
  split at h
  · next hzero =>
    cases h
    have hcw : cw = clearWord (cw.extractLsb' 0 1) := by
      conv_lhs => rw [eq_join_clear cw, hop, hzero]
      simp [clearWord]
    refine ⟨_, hcw, ?_⟩
    rw [← clearWord_flush, ← hcw]
  · cases h

theorem decodeBare_ok {cw : CommandWord} {i j : Instr} (h : decodeBare j cw = .ok i) :
    cw = (opField cw).setWidth 32 <<< 28 ∧ i = j := by
  unfold decodeBare at h
  split at h
  · next hzero =>
    cases h
    refine ⟨?_, rfl⟩
    conv_lhs => rw [eq_join_bare cw, hzero]
    simp
  · cases h

/-- What decodes is a word of one of the five opcodes, must-be-zero bits zero, and decodes to its fields. -/
theorem decode_ok_cases {cw : CommandWord} {i : Instr} (h : decode cw = .ok i) :
    (∃ k r c, cw = pixelWord k r c ∧ i = .setpx r.toInt c.toInt (colorOfCode k))
    ∨ (∃ r v, cw = rowWord r v ∧ i = .wrrow r.toFin v)
    ∨ (∃ f, cw = clearWord f ∧ i = .clr (f == 1#1))
    ∨ (cw = 0x40000000#32 ∧ i = .wrdisp)
    ∨ (cw = 0x50000000#32 ∧ i = .getbuf) := by
  unfold decode at h
  split at h
  · next hop => exact .inl (decodePixel_ok hop h)
  split at h
  · next hop => exact .inr (.inl (decodeRow_ok hop h))
  split at h
  · next hop => exact .inr (.inr (.inl (decodeClear_ok hop h)))
  split at h
  · next hop =>
    obtain ⟨hcw, rfl⟩ := decodeBare_ok h
    exact .inr (.inr (.inr (.inl ⟨by rw [hcw, hop]; rfl, rfl⟩)))
  split at h
  · next hop =>
    obtain ⟨hcw, rfl⟩ := decodeBare_ok h
    exact .inr (.inr (.inr (.inr ⟨by rw [hcw, hop]; rfl, rfl⟩)))
  · cases h

/-! ### The opcode map -/

/-- The bits of a word that a mask leaves out complete the bits that it fixes (R84). -/
theorem eq_match_or_of_mask {cw mask pattern : CommandWord} (h : cw &&& mask = pattern) :
    cw = pattern ||| cw &&& ~~~mask := by
  rw [← h]
  ext i hi
  simp only [BitVec.getElem_or, BitVec.getElem_and, BitVec.getElem_not]
  cases cw[i] <;> cases mask[i] <;> rfl

theorem pixelWord_of_mask {cw : CommandWord} (h : cw &&& 0xF8FF0000#32 = 0x10000000#32) :
    ∃ k r c, cw = pixelWord k r c := by
  have hfree : cw &&& ~~~0xF8FF0000#32 = (cw.extractLsb' 24 3).setWidth 32 <<< 24
      ||| (cw.extractLsb' 8 8).setWidth 32 <<< 8 ||| (cw.extractLsb' 0 8).setWidth 32 := by
    ext i hi
    interval_cases i <;> simp
  have hcw := eq_match_or_of_mask h
  rw [hfree, ← BitVec.or_assoc, ← BitVec.or_assoc] at hcw
  exact ⟨_, _, _, hcw⟩

theorem rowWord_of_mask {cw : CommandWord} (h : cw &&& 0xFFF80000#32 = 0x20000000#32) :
    ∃ r v, cw = rowWord r v := by
  have hfree : cw &&& ~~~0xFFF80000#32
      = (cw.extractLsb' 16 3).setWidth 32 <<< 16 ||| (cw.extractLsb' 0 16).setWidth 32 := by
    ext i hi
    interval_cases i <;> simp
  have hcw := eq_match_or_of_mask h
  rw [hfree, ← BitVec.or_assoc] at hcw
  exact ⟨_, _, hcw⟩

theorem clearWord_of_mask {cw : CommandWord} (h : cw &&& 0xFFFFFFFE#32 = 0x30000000#32) :
    ∃ f, cw = clearWord f := by
  have hfree : cw &&& ~~~0xFFFFFFFE#32 = (cw.extractLsb' 0 1).setWidth 32 := by
    ext i hi
    interval_cases i <;> simp
  have hcw := eq_match_or_of_mask h
  rw [hfree] at hcw
  exact ⟨_, hcw⟩

/-- What decodes to a command matches the command's row of the opcode map (R84). -/
theorem mask_of_decode_ok {cw : CommandWord} {i : Instr} (h : decode cw = .ok i) :
    cw &&& i.opcodeRow.mask = i.opcodeRow.matchBits := by
  obtain ⟨k, r, c, rfl, rfl⟩ | ⟨r, v, rfl, rfl⟩ | ⟨f, rfl, rfl⟩ | ⟨rfl, rfl⟩ | ⟨rfl, rfl⟩ := decode_ok_cases h
  · ext i hi
    simp only [pixelWord, Instr.opcodeRow]
    interval_cases i <;> simp
  · ext i hi
    simp only [rowWord, Instr.opcodeRow]
    interval_cases i <;> simp
  · ext i hi
    simp only [clearWord, Instr.opcodeRow]
    interval_cases i <;> simp
  · rfl
  · rfl

/-- Settles O9: what decodes matches its command's row, and a word that matches a row is of its format. -/
theorem opcodeMapDecidesTheCommand : Obligations.OpcodeMapDecidesTheCommand := by
  intro cw
  have full : cw &&& 0xFFFFFFFF#32 = cw := BitVec.and_allOnes
  refine ⟨⟨?_, fun h => ?_⟩, ⟨?_, fun h => ?_⟩, ⟨?_, fun h => ?_⟩, ⟨mask_of_decode_ok, fun h => ?_⟩,
    ⟨mask_of_decode_ok, fun h => ?_⟩⟩
  · rintro ⟨r, c, k, h⟩
    exact mask_of_decode_ok h
  · obtain ⟨k, r, c, rfl⟩ := pixelWord_of_mask h
    exact ⟨_, _, _, decode_pixelWord k r c⟩
  · rintro ⟨r, v, h⟩
    exact mask_of_decode_ok h
  · obtain ⟨r, v, rfl⟩ := rowWord_of_mask h
    exact ⟨_, _, decode_rowWord r v⟩
  · rintro ⟨f, h⟩
    exact mask_of_decode_ok h
  · obtain ⟨f, rfl⟩ := clearWord_of_mask h
    exact ⟨_, decode_clearWord f⟩
  · rw [full.symm.trans h]
    exact decode_wrdispWord
  · rw [full.symm.trans h]
    exact decode_getbufWord

/-- Settles O10: a format P word decodes to its fields, the colour read by `colorOfCode`. -/
theorem pixelFieldsDecode : Obligations.PixelFieldsDecode := by
  refine fun k r c => ⟨colorOfCode k, decode_pixelWord k r c, ?_⟩
  revert k
  decide

/-- Settles O11: the words of formats R, C and N decode to their fields. -/
theorem rowAndClearFieldsDecode : Obligations.RowAndClearFieldsDecode :=
  ⟨decode_rowWord, decode_clearWord, decode_wrdispWord, decode_getbufWord⟩

/-! ### The encoder -/

theorem encode_setpx (row col : Int) (color : Option Color) :
    encode (.setpx row col color)
      = pixelWord (colorCode color) (BitVec.ofInt 8 (clampCoord row)) (BitVec.ofInt 8 (clampCoord col)) := rfl

theorem encode_wrrow (r : Fin 8) (v : Row) : encode (.wrrow r v) = rowWord (BitVec.ofFin r) v := rfl

theorem encode_clr (f : Bool) : encode (.clr f) = clearWord (BitVec.ofBool f) := rfl

/-- Decoding an encoded command gives it back, its coordinates clamped (R87, R89). -/
theorem decode_encode (i : Instr) : decode (encode i) = .ok i.clamped := by
  cases i with
  | setpx row col color =>
    rw [encode_setpx, decode_pixelWord, toInt_ofInt_clampCoord, toInt_ofInt_clampCoord, colorOfCode_colorCode]
    rfl
  | wrrow r v => rw [encode_wrrow, decode_rowWord]; rfl
  | clr f => rw [encode_clr, decode_clearWord]; cases f <;> rfl
  | wrdisp => exact decode_wrdispWord
  | getbuf => exact decode_getbufWord

/-- Settles O12: `decode_encode`, and a well-formed command is its own clamping. -/
theorem decodeOfEncodeIsTheCommand : Obligations.DecodeOfEncodeIsTheCommand :=
  ⟨decode_encode, fun i hwf => by rw [decode_encode, clamped_of_wf hwf]⟩

/-- A colour code read and written again is itself, or it is 4 to 7 and becomes 7 (R85). -/
theorem colorCode_colorOfCode (k : BitVec 3) :
    colorCode (colorOfCode k) = k ∨ colorOfCode k = none ∧ 4 ≤ k.toNat := by
  revert k
  decide

/-- Setting the three colour bits of a format P word makes its code 7, which is an absent colour's (R85). -/
theorem pixelWord_or_code (k : BitVec 3) (r c : Byte) :
    pixelWord k r c ||| 0x07000000#32 = pixelWord (colorCode none) r c := by
  ext i hi
  simp only [pixelWord, colorCode]
  interval_cases i <;> simp

/-- What a coordinate field reads needs no clamping (R86). -/
theorem coordFits_toInt (r : Byte) : coordFits r.toInt = true := by
  have hlow := BitVec.le_toInt r
  have hhigh := BitVec.toInt_lt (x := r)
  simp only [coordFits, decide_eq_true_eq]
  omega

/-- Coordinates that were read from their fields are written back as they stood. -/
theorem encode_setpx_toInt (r c : Byte) (color : Option Color) :
    encode (.setpx r.toInt c.toInt color) = pixelWord (colorCode color) r c := by
  rw [encode_setpx, clampCoord_of_fits (coordFits_toInt r), clampCoord_of_fits (coordFits_toInt c),
    BitVec.ofInt_toInt, BitVec.ofInt_toInt]

/-- Settles O13: a word that decodes is a format's word, and encoding writes its fields back. -/
theorem encodeOfDecodeIsTheWord : Obligations.EncodeOfDecodeIsTheWord := by
  intro cw i h
  obtain ⟨k, r, c, rfl, rfl⟩ | ⟨r, v, rfl, rfl⟩ | ⟨f, rfl, rfl⟩ | ⟨rfl, rfl⟩ | ⟨rfl, rfl⟩ := decode_ok_cases h
  · refine ⟨by simp [Instr.wf, coordFits_toInt], ?_⟩
    rw [encode_setpx_toInt, pixelWord_code]
    rcases colorCode_colorOfCode k with hk | ⟨hnone, hk⟩
    · exact .inl (by rw [hk])
    · exact .inr ⟨_, _, by rw [hnone], hk, by rw [hnone, pixelWord_or_code]⟩
  · exact ⟨rfl, .inl rfl⟩
  · refine ⟨rfl, .inl ?_⟩
    obtain rfl | rfl : f = 0#1 ∨ f = 1#1 := BitVec.eq_zero_or_eq_one f
    · rfl
    · rfl
  · exact ⟨rfl, .inl rfl⟩
  · exact ⟨rfl, .inl rfl⟩

/-- Settles O3: each worked encoding is one evaluation of the encoder. -/
theorem workedEncodingsAgree : Obligations.WorkedEncodingsAgree := by
  unfold Obligations.WorkedEncodingsAgree
  decide

/-- Settles O4: each listed word is one evaluation of the decoder. -/
theorem writtenOutWordsDecode : Obligations.WrittenOutWordsDecode := by
  refine ⟨by decide, by decide, by decide, by decide, by decide, by decide, by decide, fun cw hcw => ?_⟩
  simp only [List.mem_cons, List.not_mem_nil, or_false] at hcw
  rcases hcw with rfl | rfl | rfl | rfl | rfl | rfl | rfl | rfl | rfl | rfl | rfl <;> decide

end Sys2Proof

namespace Sys2Proof.Machine

/-- Clamping turns no bad coordinate into a valid one and moves no valid one (R87, R112). -/
theorem coordinate_clampCoord (v : Int) : coordinate (clampCoord v) = coordinate v := by
  cases h : coordinate v with
  | none =>
    rw [coordinate_eq_none_iff] at h ⊢
    simp only [clampCoord]
    omega
  | some r =>
    rw [coordinate_eq_some_iff] at h ⊢
    simp only [clampCoord]
    omega

/-- A command does what its clamped image does (R87). -/
theorem exec_clamped (i : Instr) (s : State) : exec i.clamped s = exec i s := by
  cases i with
  | setpx row col color => simp only [Instr.clamped, exec, execSetpx, coordinate_clampCoord]
  | wrrow _ _ => rfl
  | clr _ => rfl
  | wrdisp => rfl
  | getbuf => rfl

/-- Settles O14: the word carries the clamped command, which names the same pixel or none. -/
theorem clampingKeepsTheEffect : Obligations.ClampingKeepsTheEffect := by
  refine fun row col color s => ⟨decode_encode (.setpx row col color), exec_clamped (.setpx row col color) s, ?_⟩
  rintro rfl
  rw [encode_setpx, pixelWord_code]
  rfl

end Sys2Proof.Machine
end

section
/-! What a command does, as a function of the rows alone: the rows it leaves, the frames it sends and the
responses it gives. -/

namespace Sys2Proof.Machine

open Sys2Proof.Spec

/-- The rows a command leaves, from the rows it finds. -/
def rowsAfter (i : Instr) (fb : FrameBuffer) : FrameBuffer :=
  match i with
  | .setpx row col color =>
    match coordinate row, coordinate col, color with
    | some r, some c, some k => fb.set r (foldPixel c k fb[r])
    | _, _, _ => fb
  | .wrrow r v => fb.set r v
  | .clr _ => zeroBuffer
  | .wrdisp => fb
  | .getbuf => fb

/-- The sink-log entries a command appends: as many as R155 says, each the frame of the rows it leaves. -/
def framesSent (i : Instr) (fb : FrameBuffer) : List SinkEntry :=
  List.replicate (sinkWrites i) ⟨0, frameBytes (rowsAfter i fb)⟩

/-- The responses a command gives (R138). -/
def answersGiven (i : Instr) (fb : FrameBuffer) : List FrameBuffer := if i = .getbuf then [fb] else []

/-- The state after a command. -/
def State.afterCommand (s : State) (i : Instr) : State :=
  { s with
    fb := rowsAfter i s.fb
    sinkLog := s.sinkLog ++ framesSent i s.fb
    responses := s.responses ++ answersGiven i s.fb }

/-- The operands of a `SETPX` either make it a no-op or name a pixel and a colour (R110, R112). -/
theorem setpx_operands (row col : Int) (color : Option Color) :
    (coordinate row = none ∨ coordinate col = none ∨ color = none)
    ∨ ∃ (r c : Fin 8) (k : Color), row = (r.val : Int) ∧ col = (c.val : Int) ∧ color = some k := by
  rcases hrow : coordinate row with _ | r
  · exact .inl (.inl rfl)
  rcases hcol : coordinate col with _ | c
  · exact .inl (.inr (.inl rfl))
  cases color with
  | none => exact .inl (.inr (.inr rfl))
  | some k =>
    exact .inr ⟨r, c, k, (coordinate_eq_some_iff row r).1 hrow, (coordinate_eq_some_iff col c).1 hcol, rfl⟩

/-- `SETPX` with valid operands replaces its row by the folded one (R110). -/
theorem rowsAfter_setpx_valid (r c : Fin 8) (k : Color) (fb : FrameBuffer) :
    rowsAfter (.setpx (r.val : Int) (c.val : Int) (some k)) fb = fb.set r (foldPixel c k fb[r]) := by
  simp only [rowsAfter, coordinate_coe]

/-- `SETPX` without both coordinates and a colour leaves the rows (R112). -/
theorem rowsAfter_setpx_noop {row col : Int} {color : Option Color} (fb : FrameBuffer)
    (h : coordinate row = none ∨ coordinate col = none ∨ color = none) :
    rowsAfter (.setpx row col color) fb = fb := by
  simp only [rowsAfter]
  split
  · next hrow hcol => simp [hrow, hcol] at h
  · rfl

/-- A command that neither flushes nor responds changes the rows alone. -/
theorem afterCommand_of_silent {i : Instr} (s : State) (hflush : sinkWrites i = 0) (hresp : i ≠ .getbuf) :
    s.afterCommand i = { s with fb := rowsAfter i s.fb } := by
  simp [State.afterCommand, framesSent, answersGiven, hflush, hresp]

theorem exec_setpx_eq_afterCommand (row col : Int) (color : Option Color) (s : State) :
    exec (.setpx row col color) s = .next (s.afterCommand (.setpx row col color)) := by
  rw [afterCommand_of_silent s rfl (by simp)]
  obtain h | ⟨r, c, k, rfl, rfl, rfl⟩ := setpx_operands row col color
  · rw [exec_setpx_noop s h, rowsAfter_setpx_noop _ h]
  · rw [exec_setpx_valid, rowsAfter_setpx_valid]
    rfl

/-- Every command completes, and what it adds to the state depends on the rows alone (R210, R23). -/
theorem exec_eq_afterCommand (i : Instr) (s : State) : exec i s = .next (s.afterCommand i) := by
  cases i with
  | setpx row col color => exact exec_setpx_eq_afterCommand row col color s
  | wrrow r v => rw [exec_wrrow, afterCommand_of_silent s rfl (by simp)]; rfl
  | clr f =>
    cases f with
    | false => rw [exec_clr_false, afterCommand_of_silent s rfl (by simp)]; rfl
    | true =>
      have hanswers : answersGiven (.clr true) s.fb = [] := rfl
      rw [exec_clr_true, State.afterCommand, hanswers, List.append_nil]
      rfl
  | wrdisp =>
    have hanswers : answersGiven .wrdisp s.fb = [] := rfl
    rw [exec_wrdisp, State.afterCommand, hanswers, List.append_nil]
    rfl
  | getbuf =>
    have hframes : framesSent .getbuf s.fb = [] := rfl
    rw [exec_getbuf, State.afterCommand, hframes, List.append_nil]
    rfl

/-- A command appends at most one entry, a whole frame at offset 0 (R26, R155). -/
theorem framesSent_length_le (i : Instr) (fb : FrameBuffer) : (framesSent i fb).length ≤ 1 := by
  rw [framesSent, List.length_replicate]
  cases i with
  | clr f => cases f <;> simp [sinkWrites]
  | _ => simp [sinkWrites]

theorem framesSent_wellFormed {i : Instr} {fb : FrameBuffer} {e : SinkEntry} (he : e ∈ framesSent i fb) :
    e.offset = 0 ∧ e.bytes.length = 16 := by
  obtain rfl := List.eq_of_mem_replicate he
  exact ⟨rfl, rfl⟩

/-- Only `CLR 1` and `WRDISP` flush (R155). -/
theorem framesSent_of_unflushed {i : Instr} (fb : FrameBuffer) (hclr : i ≠ .clr true) (hwrdisp : i ≠ .wrdisp) :
    framesSent i fb = [] := by
  cases i with
  | clr f =>
    cases f with
    | false => rfl
    | true => exact absurd rfl hclr
  | wrdisp => exact absurd rfl hwrdisp
  | setpx _ _ _ => rfl
  | wrrow _ _ => rfl
  | getbuf => rfl

/-- Settles O29: the entries appended are `framesSent`, by R155's count. -/
theorem sinkWriteCounts : Obligations.SinkWriteCounts :=
  fun i s => ⟨_, exec_eq_afterCommand i s, rfl⟩

/-- Settles O33: the entries appended are a function of the rows, so another log gets the same ones. -/
theorem sinkLogIsAppendOnlyAndUnread : Obligations.SinkLogIsAppendOnlyAndUnread :=
  ⟨rfl, fun i s => ⟨_, framesSent i s.fb, exec_eq_afterCommand i s, rfl, framesSent_length_le i s.fb,
    fun _ he => framesSent_wellFormed he, fun _ => exec_eq_afterCommand i _⟩⟩

/-- Settles O34: rows left, frames sent and responses given are functions of the rows. -/
theorem commandsDependOnTheRowsAlone : Obligations.CommandsDependOnTheRowsAlone := by
  intro i s₁ s₂ hfb
  refine ⟨_, _, framesSent i s₁.fb, answersGiven i s₁.fb, exec_eq_afterCommand i s₁, exec_eq_afterCommand i s₂,
    ?_, rfl, ?_, rfl, ?_⟩
  · simp only [State.afterCommand, hfb]
  · simp only [State.afterCommand, hfb]
  · simp only [State.afterCommand, hfb]

/-- Settles O39: no entry is appended, so the image is the same function of the same log. -/
theorem unflushedChangesAreInvisible : Obligations.UnflushedChangesAreInvisible := by
  intro env s i hclr hwrdisp
  refine ⟨_, exec_eq_afterCommand i s, ?_⟩
  simp only [State.afterCommand, framesSent_of_unflushed s.fb hclr hwrdisp, List.append_nil]

/-- The image after one more sink write is that write's, if it was delivered (R156). -/
theorem deviceImage_append (env : SinkEnvironment) (log : List SinkEntry) (e : SinkEntry) :
    deviceImage env (log ++ [e]) = if env.delivers log.length then e.bytes else env.undelivered log.length := by
  simp [deviceImage]

/-- Settles O38: `WRDISP` appends the frame of the rows, and the image is the last entry's or the environment's. -/
theorem deviceShowsTheDeliveredFlush : Obligations.DeviceShowsTheDeliveredFlush := by
  intro env s
  refine ⟨_, exec_wrdisp s, fun hd => ?_, fun hd => ?_⟩
  · rw [State.flush_sinkLog, deviceImage_append, if_pos hd, frame_eq_frameBytes]
  · rw [State.flush_sinkLog, deviceImage_append, hd]
    rfl

/-- Settles O21: the row write is the update of that row. -/
theorem wrrowAssignsTheRow : Obligations.WrrowAssignsTheRow := fun s r v => exec_wrrow r v s

/-- Settles O25: the response is the snapshot of the rows. -/
theorem getbufRespondsWithTheRows : Obligations.GetbufRespondsWithTheRows := exec_getbuf

/-! ### The response word -/

/-- A row placed at row slot `m` of a response word shows in that slot, and every other slot is zero. -/
theorem placedRow_getLsbD (v : Row) (m k : Fin 8) {j : Nat} (hj : j < 16) :
    (v.setWidth 128 <<< (16 * m.val)).getLsbD (16 * k.val + j) = (decide (k = m) && v.getLsbD j) := by
  rw [BitVec.getLsbD_shiftLeft, BitVec.getLsbD_setWidth]
  rcases lt_trichotomy k m with h | rfl | h
  · have hlt : 16 * k.val + j < 16 * m.val := by omega
    simp [h.ne, hlt]
  · have hin : 16 * k.val + j < 128 := by omega
    have hj' : j < 128 := by omega
    simp [hin, hj']
  · have hout : 16 ≤ 16 * k.val + j - 16 * m.val := by omega
    simp [h.ne', BitVec.getLsbD_of_ge v _ hout]

/-- The join of the rows of a list of slots holds, in slot `k`, row `k` if the list names it. -/
theorem joinedRows_getLsbD (v : FrameBuffer) (k : Fin 8) {j : Nat} (hj : j < 16) (slots : List (Fin 8)) :
    (slots.foldr (fun (i : Fin 8) (acc : BitVec 128) => acc ||| (v[i].setWidth 128 <<< (16 * i.val))) 0#128).getLsbD
      (16 * k.val + j) = (decide (k ∈ slots) && v[k].getLsbD j) := by
  induction slots with
  | nil => simp
  | cons m slots ih =>
    rw [List.foldr_cons, BitVec.getLsbD_or, ih, placedRow_getLsbD _ m k hj]
    by_cases hk : k = m
    · subst hk; simp
    · simp [hk]

/-- Slot `i` of the response word is row `i` (R140). -/
theorem responseWord_extract (v : FrameBuffer) (i : Fin 8) : (responseWord v).extractLsb' (16 * i.val) 16 = v[i] := by
  have hmem : i ∈ rowIndices := by revert i; decide
  refine BitVec.eq_of_getLsbD_eq fun j hj => ?_
  rw [BitVec.getLsbD_extractLsb', responseWord, joinedRows_getLsbD v i hj]
  simp [hj, hmem]

/-- Settles O26: the response word's slots are the rows, and `answersGiven` is empty but for `GETBUF`. -/
theorem responseWordHoldsRowsInOrder : Obligations.ResponseWordHoldsRowsInOrder := by
  refine ⟨responseWord_extract, fun i s => ⟨_, exec_eq_afterCommand i s, ?_⟩⟩
  simp only [State.afterCommand, answersGiven]
  split
  · rfl
  · exact List.append_nil _

end Sys2Proof.Machine
end

section
/-! The frame as an encoding of the buffer: its inverse, and which wire bytes a row command reaches. -/

namespace Sys2Proof.Machine

open Sys2Proof.Spec

theorem unframe_getElem (b : List Byte) (i : Fin 8) :
    (unframe b)[i] = (b.getD (2 * i.val) 0).setWidth 16 ||| (b.getD (2 * i.val + 1) 0).setWidth 16 <<< 8 := by
  simp [unframe]

/-- Two bytes joined to a row are its halves (R154). -/
theorem lo8_join (x y : Byte) : lo8 (x.setWidth 16 ||| y.setWidth 16 <<< 8) = x := by
  refine BitVec.eq_of_getLsbD_eq fun j hj => ?_
  rw [lo8_getLsbD _ hj]
  simp [hj, (by omega : j < 16)]

theorem hi8_join (x y : Byte) : hi8 (x.setWidth 16 ||| y.setWidth 16 <<< 8) = y := by
  refine BitVec.eq_of_getLsbD_eq fun j hj => ?_
  rw [hi8_getLsbD _ hj]
  simp [(by omega : j + 8 < 16)]

theorem unframe_frame (fb : FrameBuffer) : unframe (frame fb) = fb := by
  refine Vector.ext fun i hi => ?_
  have hrow := unframe_getElem (frame fb) ⟨i, hi⟩
  rw [frame_getD_even, frame_getD_odd, join_halves] at hrow
  exact hrow

/-- The wire bytes of the buffer that 16 bytes came from are those bytes: the even ones are the low halves
of its rows, the odd ones the high halves (R154). -/
theorem frame_unframe {b : List Byte} (hb : b.length = 16) : frame (unframe b) = b := by
  refine List.ext_getElem (by rw [frame_length, hb]) fun k hk hk' => ?_
  rw [← List.getD_eq_getElem _ 0 hk, ← List.getD_eq_getElem _ 0 hk']
  obtain ⟨i, rfl | rfl⟩ : ∃ i : Fin 8, k = 2 * i.val ∨ k = 2 * i.val + 1 :=
    ⟨⟨k / 2, by omega⟩, by dsimp only; omega⟩
  · rw [frame_getD_even, unframe_getElem, lo8_join]
  · rw [frame_getD_odd, unframe_getElem, hi8_join]

/-- Settles O28: `unframe` undoes `frame` and is undone by it, and `frameByteOrder` places a pixel's bits. -/
theorem frameIsABijection : Obligations.FrameIsABijection := by
  refine ⟨unframe_frame, fun b => frame_unframe, unframe_getElem, fun fb i c => ?_⟩
  obtain ⟨hlow, hhigh⟩ := (frameByteOrder fb).2 i c.val c.isLt
  exact ⟨hlow.symm, hhigh.symm⟩

/-- A row write leaves every wire byte of another row (R53). -/
theorem frame_set_getD_of_ne (fb : FrameBuffer) (r : Fin 8) (v : Row) {k : Nat} (hk : k / 2 ≠ r.val) :
    (frame (fb.set r v)).getD k 0 = (frame fb).getD k 0 := by
  by_cases hlt : k < 16
  · rw [frame_getD _ ⟨k, hlt⟩, frame_getD _ ⟨k, hlt⟩]
    simp only [mux]
    rw [Vector.getElem_set_ne _ _ hk.symm]
  · simp [Nat.le_of_not_lt hlt]

/-- A row write shows in the two wire bytes of its row (R53). -/
theorem frame_set_getD_self (fb : FrameBuffer) (r : Fin 8) (v : Row) :
    (frame (fb.set r v)).getD (2 * r.val) 0 = lo8 v ∧ (frame (fb.set r v)).getD (2 * r.val + 1) 0 = hi8 v := by
  have hrow : (fb.set r v)[r] = v := Vector.getElem_set_self _
  rw [frame_getD_even, frame_getD_odd, hrow]
  exact ⟨rfl, rfl⟩

/-- Settles O31: `WRROW` and a valid `SETPX` are both one row write. -/
theorem aRowChangesTwoWireBytes : Obligations.ARowChangesTwoWireBytes := by
  refine fun s r k hk => ⟨fun v => ⟨_, exec_wrrow r v s, ?_⟩, fun c color => ⟨_, exec_setpx_valid r c color s, ?_⟩⟩
  · exact ⟨frame_set_getD_of_ne s.fb r v hk, frame_set_getD_self s.fb r v⟩
  · rw [foldPixel_eq_foldedRow]
    exact ⟨frame_set_getD_of_ne s.fb r _ hk, frame_set_getD_self s.fb r _⟩

end Sys2Proof.Machine
end

section
/-! Commands in sequence: row writes and pixel folds that repeat, override or commute. -/

namespace Sys2Proof.Machine

open Sys2Proof.Spec

/-- Two commands in a list are the second in the state the first leaves. -/
theorem execAll_pair {i j : Instr} {s t : State} (h : exec i s = .next t) : execAll [i, j] s = exec j t := by
  simp only [execAll, h]
  cases exec j t <;> rfl

/-! ### Row writes -/

theorem writeRow_writeRow (s : State) (r : Fin 8) (v w : Row) : (s.writeRow r v).writeRow r w = s.writeRow r w := by
  simp only [State.writeRow, Vector.set_set]

theorem writeRow_comm (s : State) {r q : Fin 8} (h : r ≠ q) (v w : Row) :
    (s.writeRow r v).writeRow q w = (s.writeRow q w).writeRow r v := by
  have hne : r.val ≠ q.val := fun e => h (Fin.ext e)
  simp only [State.writeRow, Vector.set_comm _ _ hne]

/-! ### Pixel folds -/

/-- The bits a fold sets (R110). -/
def setsBit (c : Fin 8) (k : Color) (j : Nat) : Bool :=
  match k with
  | .green => decide (j = c.val)
  | .red => decide (j = c.val + 8)
  | .yellow => decide (j = c.val) || decide (j = c.val + 8)
  | .off => false

/-- The bits a fold clears (R110, R114). -/
def clearsBit (c : Fin 8) (k : Color) (j : Nat) : Bool :=
  match k with
  | .off => decide (j = c.val) || decide (j = c.val + 8)
  | _ => false

/-- A fold, bit by bit: it sets some bits or clears some, and keeps the others. -/
theorem foldPixel_getLsbD_eq (c : Fin 8) (k : Color) (v : Row) {j : Nat} (hj : j < 16) :
    (foldPixel c k v).getLsbD j = ((v.getLsbD j || setsBit c k j) && !clearsBit c k j) := by
  rw [foldPixel_getLsbD c k v j hj]
  cases k <;> simp [setsBit, clearsBit, Bool.or_assoc, Bool.and_assoc]

/-- A fold reaches only the two bits of its column. -/
theorem eq_of_setsBit {c : Fin 8} {k : Color} {j : Nat} (h : setsBit c k j = true) : j = c.val ∨ j = c.val + 8 := by
  cases k <;> simp [setsBit] at h <;> omega

theorem eq_of_clearsBit {c : Fin 8} {k : Color} {j : Nat} (h : clearsBit c k j = true) : j = c.val ∨ j = c.val + 8 := by
  cases k <;> simp [clearsBit] at h
  omega

theorem clearsBit_of_ne_off {k : Color} (hk : k ≠ .off) (c : Fin 8) (j : Nat) : clearsBit c k j = false := by
  cases k <;> simp [clearsBit] at hk ⊢

/-- Folding the same pixel twice is folding it once (R118). -/
theorem foldPixel_idem (c : Fin 8) (k : Color) (v : Row) : foldPixel c k (foldPixel c k v) = foldPixel c k v := by
  refine BitVec.eq_of_getLsbD_eq fun j hj => ?_
  simp only [foldPixel_getLsbD_eq c k _ hj]
  cases v.getLsbD j <;> cases setsBit c k j <;> cases clearsBit c k j <;> rfl

/-- Two folds commute when neither sets a bit that the other clears. -/
theorem foldPixel_comm {c c' : Fin 8} {k k' : Color} (h : ∀ j, (setsBit c k j && clearsBit c' k' j) = false)
    (h' : ∀ j, (setsBit c' k' j && clearsBit c k j) = false) (v : Row) :
    foldPixel c' k' (foldPixel c k v) = foldPixel c k (foldPixel c' k' v) := by
  refine BitVec.eq_of_getLsbD_eq fun j hj => ?_
  have hj1 := h j
  have hj2 := h' j
  simp only [foldPixel_getLsbD_eq _ _ _ hj]
  revert hj1 hj2
  cases v.getLsbD j <;> cases setsBit c k j <;> cases clearsBit c k j <;> cases setsBit c' k' j <;>
    cases clearsBit c' k' j <;> decide

/-- Folds of colours other than OFF clear nothing, so they commute (R118). -/
theorem foldPixel_comm_of_ne_off {k k' : Color} (hk : k ≠ .off) (hk' : k' ≠ .off) (c c' : Fin 8) (v : Row) :
    foldPixel c' k' (foldPixel c k v) = foldPixel c k (foldPixel c' k' v) :=
  foldPixel_comm (fun j => by rw [clearsBit_of_ne_off hk', Bool.and_false])
    (fun j => by rw [clearsBit_of_ne_off hk, Bool.and_false]) v

theorem setsBit_and_clearsBit_of_ne_col {c c' : Fin 8} (hc : c ≠ c') (k k' : Color) (j : Nat) :
    (setsBit c k j && clearsBit c' k' j) = false := by
  have hne : c.val ≠ c'.val := fun e => hc (Fin.ext e)
  refine Bool.eq_false_iff.2 fun h => ?_
  obtain ⟨hset, hclear⟩ := Bool.and_eq_true_iff.1 h
  have hset := eq_of_setsBit hset
  have hclear := eq_of_clearsBit hclear
  omega

/-- Folds of different columns reach different bits, so they commute (R118). -/
theorem foldPixel_comm_of_ne_col {c c' : Fin 8} (hc : c ≠ c') (k k' : Color) (v : Row) :
    foldPixel c' k' (foldPixel c k v) = foldPixel c k (foldPixel c' k' v) :=
  foldPixel_comm (setsBit_and_clearsBit_of_ne_col hc k k') (setsBit_and_clearsBit_of_ne_col hc.symm k' k) v

/-! ### `SETPX` in sequence -/

/-- Two `SETPX` on one row fold it twice. -/
theorem execAll_setpx_same_row (s : State) (r c c' : Fin 8) (k k' : Color) :
    execAll [.setpx (r.val : Int) (c.val : Int) (some k), .setpx (r.val : Int) (c'.val : Int) (some k')] s
      = .next (s.writeRow r (foldPixel c' k' (foldPixel c k (s.readRow r)))) := by
  rw [execAll_pair (exec_setpx_valid r c k s), exec_setpx_valid, State.readRow_writeRow, writeRow_writeRow]

/-- Two `SETPX` on different rows each fold their row. -/
theorem execAll_setpx_ne_row (s : State) {r r' : Fin 8} (hr : r ≠ r') (c c' : Fin 8) (k k' : Color) :
    execAll [.setpx (r.val : Int) (c.val : Int) (some k), .setpx (r'.val : Int) (c'.val : Int) (some k')] s
      = .next ((s.writeRow r (foldPixel c k (s.readRow r))).writeRow r' (foldPixel c' k' (s.readRow r'))) := by
  rw [execAll_pair (exec_setpx_valid r c k s), exec_setpx_valid, State.readRow_writeRow_ne _ _ _ _ hr.symm]

/-- Two `SETPX` commute when, if they name one row, their folds of it do. -/
theorem execAll_setpx_comm (s : State) (r c r' c' : Fin 8) (k k' : Color)
    (h : r = r' → ∀ v, foldPixel c' k' (foldPixel c k v) = foldPixel c k (foldPixel c' k' v)) :
    execAll [.setpx (r.val : Int) (c.val : Int) (some k), .setpx (r'.val : Int) (c'.val : Int) (some k')] s
      = execAll [.setpx (r'.val : Int) (c'.val : Int) (some k'), .setpx (r.val : Int) (c.val : Int) (some k)] s := by
  by_cases hr : r = r'
  · subst hr
    rw [execAll_setpx_same_row, execAll_setpx_same_row, h rfl]
  · rw [execAll_setpx_ne_row s hr, execAll_setpx_ne_row s (Ne.symm hr), writeRow_comm s hr]

/-- The colour a pixel shows after two `SETPX` on it is the transition table's, twice (R113). -/
theorem execAll_setpx_colorAt (s : State) (r c : Fin 8) (k k' : Color) :
    ∃ t, execAll [.setpx (r.val : Int) (c.val : Int) (some k), .setpx (r.val : Int) (c.val : Int) (some k')] s = .next t
      ∧ colorAt t.fb[r] c = afterColor (afterColor (colorAt s.fb[r] c) (some k)) (some k') := by
  refine ⟨_, execAll_setpx_same_row s r c c k k', ?_⟩
  rw [← colorAt_foldPixel, ← colorAt_foldPixel]
  exact congrArg (colorAt · c) (State.readRow_writeRow s r _)

/-- Settles O20: each property is one about folds of a row, or about writes of two rows. -/
theorem setpxAlgebra : Obligations.SetpxAlgebra := by
  intro s r c r' c' k k'
  refine ⟨?_, fun hk hk' => ?_, fun hne => ?_, fun hk => ⟨?_, ?_⟩, ?_, ?_⟩
  · rw [execAll_setpx_same_row, foldPixel_idem, exec_setpx_valid]
  · exact execAll_setpx_comm s r c r' c' k k' fun _ => foldPixel_comm_of_ne_off hk hk' c c'
  · refine execAll_setpx_comm s r c r' c' k k' fun hr => foldPixel_comm_of_ne_col (fun hc => hne ?_) k k'
    rw [hr, hc]
  · obtain ⟨t, ht, hcolor⟩ := execAll_setpx_colorAt s r c .off k
    refine ⟨t, ht, hcolor.trans ?_⟩
    cases k <;> rfl
  · obtain ⟨t, ht, hcolor⟩ := execAll_setpx_colorAt s r c k .off
    exact ⟨t, ht, hcolor⟩
  · rw [execAll_setpx_same_row, exec_setpx_valid]
    rfl
  · rw [execAll_setpx_same_row, exec_setpx_valid, foldPixel_comm_of_ne_off (by decide) (by decide)]
    rfl

/-- Settles O19: the fold reaches the two bits of its column, GREEN and RED only their own plane's. -/
theorem setpxTouchesTwoBitsOfOneRow : Obligations.SetpxTouchesTwoBitsOfOneRow := by
  intro s r c k
  have hrow : (s.writeRow r (foldPixel c k (s.readRow r))).fb[r] = foldPixel c k s.fb[r] := s.readRow_writeRow r _
  refine ⟨_, exec_setpx_valid r c k s, fun q hq => ?_, fun j hj hgreen hred => ?_, ?_, ?_, rfl⟩
  · exact s.readRow_writeRow_ne r q _ hq
  · rw [hrow, foldPixel_getLsbD c k _ j hj]
    cases k <;> simp [hgreen, hred]
  · rintro rfl
    rw [hrow]
    exact (redLit_foldPixel c .green s.fb[r]).trans (Bool.or_false _)
  · rintro rfl
    rw [hrow]
    exact (greenLit_foldPixel c .red s.fb[r]).trans (Bool.or_false _)

/-! ### Idempotent writes and reads -/

/-- `SETPX` twice is `SETPX` once, for all operands: a no-op twice, or a fold twice (R57, R118). -/
theorem execAll_setpx_idem (row col : Int) (k : Option Color) (s : State) :
    execAll [.setpx row col k, .setpx row col k] s = exec (.setpx row col k) s := by
  obtain h | ⟨r, c, color, rfl, rfl, rfl⟩ := setpx_operands row col k
  · rw [execAll_pair (exec_setpx_noop s h), exec_setpx_noop s h]
  · rw [execAll_setpx_same_row, foldPixel_idem, exec_setpx_valid]

/-- `CLR` zeroes the rows, whatever its flush operand (R130). -/
theorem exec_clr_rows (f : Bool) (s : State) : ∃ t, exec (.clr f) s = .next t ∧ t.fb = zeroBuffer :=
  ⟨_, exec_eq_afterCommand (.clr f) s, rfl⟩

/-- Settles O30: `GETBUF` and `WRDISP` leave the rows that the second reads, and row writes override. -/
theorem readsAndWritesAreIdempotent : Obligations.ReadsAndWritesAreIdempotent := by
  refine fun s => ⟨⟨_, execAll_pair (exec_getbuf s), rfl, rfl, ?_⟩,
    ⟨_, ⟨sinkOffset, frame s.fb⟩, execAll_pair (exec_wrdisp s), rfl, ?_⟩,
    fun r v => ⟨?_, _, exec_wrrow r v s, s.readRow_writeRow r v⟩,
    fun row col k => execAll_setpx_idem row col k s, fun f f' => ?_⟩
  · simp
  · simp
  · rw [execAll_pair (exec_wrrow r v s), exec_wrrow, exec_wrrow, writeRow_writeRow]
  · obtain ⟨t, ht, -⟩ := exec_clr_rows f s
    obtain ⟨u, hu, hzero⟩ := exec_clr_rows f' t
    refine ⟨u, (execAll_pair ht).trans hu, fun r => ?_⟩
    rw [hzero]
    exact Vector.getElem_replicate _

/-- Settles O23: `CLR 1` flushes the rows that `CLR 0` leaves, and `WRDISP` is that flush. -/
theorem clrOneIsClrZeroThenWrdisp : Obligations.ClrOneIsClrZeroThenWrdisp := by
  intro s
  rw [execAll_pair (exec_clr_false s), exec_wrdisp, exec_clr_true]

end Sys2Proof.Machine
end

section
/-! One step of the machine: what it does with each thing the host can have to do next. -/

namespace Sys2Proof.Machine

section StepRules

variable {table : GlyphTable} {rates : List BlinkRate} {s : State} {rest : List HostStep}

/-- With a host step pending, a step performs it in the state in which it has been taken. -/
theorem stepWith_of_pending {h : HostStep} (hp : s.pending = h :: rest) :
    stepWith table rates s = performHostStep table rates h (s.withPending rest) := by
  simp only [stepWith, hp]

/-- With no host step pending, a step waits (R242). -/
theorem stepWith_of_pending_nil (hp : s.pending = []) : stepWith table rates s = .next s := by
  simp only [stepWith, hp]

theorem stepWith_issue {cw : CommandWord} {i : Instr} (hp : s.pending = .issue cw :: rest) (hi : decode cw = .ok i) :
    stepWith table rates s = exec i (s.withPending rest) := by
  simp only [stepWith_of_pending hp, performHostStep, performIssue, hi]

theorem stepWith_issue_reserved {cw : CommandWord} {e : Reserved} (hp : s.pending = .issue cw :: rest)
    (he : decode cw = .error e) : stepWith table rates s = .refused (.reservedWord e) := by
  simp only [stepWith_of_pending hp, performHostStep, performIssue, he]

theorem stepWith_hold {n : Nat} (hp : s.pending = .hold n :: rest) :
    stepWith table rates s = .next ((s.withPending rest).recordHold n) :=
  stepWith_of_pending hp

theorem stepWith_invoke {m : HostMacro} {steps : List HostStep} (hp : s.pending = .invoke m :: rest)
    (hm : m.expand table = .ok steps) : stepWith table rates s = .next (s.withPending (steps ++ rest)) := by
  simp only [stepWith_of_pending hp, performHostStep, performInvoke, hm, State.withPending_pending,
    State.withPending_withPending]

theorem stepWith_invoke_refused {m : HostMacro} {e : Refusal} (hp : s.pending = .invoke m :: rest)
    (hm : m.expand table = .error e) : stepWith table rates s = .refused e := by
  simp only [stepWith_of_pending hp, performHostStep, performInvoke, hm]

end StepRules

/-- Settles O5: a placed word is itself as a table word, and the step takes it off again. -/
theorem stepRunsDecodedCommand : Obligations.StepRunsDecodedCommand := by
  refine ⟨fun s cw i rest hp hi => stepWith_issue hp hi, fun s cw i hi => ?_⟩
  have hword : tableWord 32 cw.toNat = cw := by
    rw [tableWord, Nat.mod_eq_of_lt cw.isLt, BitVec.ofNat_toNat, BitVec.setWidth_eq]
  have hp := s.withFetchWord_pending 32 cw.toNat
  rw [hword] at hp
  rw [step, stepWith_issue hp hi, State.withFetchWord_withPending]

/-- Settles O6: a word the decoder rejects is refused with the decoder's reason. -/
theorem stepRefusesReservedWord : Obligations.StepRefusesReservedWord :=
  fun _ _ _ _ hp he => stepWith_issue_reserved hp he

/-- Settles O7: the empty list of host steps is a wait. -/
theorem emptyPortWaits : Obligations.EmptyPortWaits := fun _ hp => stepWith_of_pending_nil hp

/-- Settles O8, by induction on the number of steps: `core`'s step is `stepWith` at the installation's parameters. -/
theorem coreRunIsRunOverParameters : Obligations.CoreRunIsRunOverParameters := by
  intro k
  induction k with
  | zero => exact fun _ => rfl
  | succ k ih =>
    intro s
    have hstep : Host.Core.step core s = stepWith Config.glyph Config.blinkRates s := rfl
    simp only [Host.Core.run, runWith, hstep]
    cases stepWith Config.glyph Config.blinkRates s with
    | next t => exact ih t
    | fault r => rfl
    | refused r => rfl

/-- Settles O40: the clash of two issuers has no meaning. -/
theorem unserialisedIssuersAreRefused : Obligations.UnserialisedIssuersAreRefused :=
  fun _ _ _ _ hp => stepWith_of_pending hp

/-- Settles O41: the reset input replaces the rows and the log. -/
theorem resetInputClearsTheBlock : Obligations.ResetInputClearsTheBlock :=
  fun _ _ hp => stepWith_of_pending hp

/-- A clamped request is the nearest brightness in 0..15 (R28). -/
theorem clampBrightness_le (b : Int) : clampBrightness b ≤ 15 := by
  simp only [clampBrightness]
  omega

/-- Settles O42: the stored brightness is the clamped request. -/
theorem brightnessIsClamped : Obligations.BrightnessIsClamped := by
  refine fun s b rest hp => ⟨clampBrightness b, stepWith_of_pending hp, ?_, ?_, ?_⟩ <;>
    simp only [clampBrightness] <;> omega

/-- Settles O43: the enumeration's membership decides between the store and the refusal. -/
theorem blinkRateIsValidated : Obligations.BlinkRateIsValidated := by
  refine fun table rates s x rest hp => ⟨fun hx => ?_, fun hx => ?_⟩
  · rw [stepWith_of_pending hp]
    exact if_pos hx
  · rw [stepWith_of_pending hp]
    exact if_neg hx

/-- Settles O49: the hold is appended to the trace. -/
theorem holdIsRecorded : Obligations.HoldIsRecorded := fun _ _ _ hp => stepWith_hold hp

/-- Settles O57: a hold of `n` adds `n` units, and a sum of equal holds is their number times one of them. -/
theorem holdsAreCountedInTheTimeUnit : Obligations.HoldsAreCountedInTheTimeUnit := by
  refine fun τ _ timeUnit => ⟨fun s n rest hp => ⟨_, stepWith_hold hp, ?_⟩, fun s d => ?_⟩
  · rw [State.nominalWait_recordHold, State.nominalWait_withPending, nominalDuration]
  · simp only [State.nominalWait, List.map_append, List.map_replicate, List.sum_append, List.sum_replicate,
      nominalDuration, idiv8, ← mul_nsmul]
    rw [mul_comm]

/-- Settles O36: what else the host can do changes the trace, the list of host steps or the sink's scalars. -/
theorem onlyCommandsChangeTheBuffer : Obligations.OnlyCommandsChangeTheBuffer := by
  intro table rates s t h rest hp hissue hreset hstep
  obtain ⟨hnil, -⟩ | ⟨x, rest', hp', hcase⟩ := stepWith_cases hstep
  · rw [hp] at hnil; cases hnil
  obtain ⟨rfl, rfl⟩ : h = x ∧ rest = rest' := by simpa [hp] using hp'
  obtain ⟨cw, -, rfl, -⟩ | ⟨n, -, rfl⟩ | ⟨m, steps, -, -, rfl⟩ | ⟨b, -, rfl⟩ | ⟨r, -, -, rfl⟩ | ⟨rfl, -⟩ := hcase
  · exact absurd rfl (hissue cw)
  · exact ⟨rfl, rfl, rfl⟩
  · exact ⟨rfl, rfl, rfl⟩
  · exact ⟨rfl, rfl, rfl⟩
  · exact ⟨rfl, rfl, rfl⟩
  · exact absurd rfl hreset

/-! ### Construction, reset and several instances -/

/-- Settles O1: the reset rows are eight zeroes. -/
theorem resetIsZeroBufferAndEmptyLog : Obligations.ResetIsZeroBufferAndEmptyLog :=
  ⟨fun _ => Vector.getElem_replicate _, rfl⟩

/-- Settles O44: `construct` gives the reset state in both outcomes, and `createMatrix` is one of them. -/
theorem constructionAlwaysYieldsReset : Obligations.ConstructionAlwaysYieldsReset :=
  ⟨fun _ _ _ => ⟨rfl, rfl⟩, fun _ _ => ⟨_, rfl⟩⟩

/-- One of several blocks steps as its state does; its sink stays attached (R244). -/
theorem step_state_of_instanceStep {m n : Instance} (h : m.step = .next n) : n.sink = m.sink ∧ step m.state = .next n.state := by
  unfold Instance.step at h
  split at h
  · next t ht => cases h; exact ⟨rfl, ht⟩
  · cases h
  · cases h

/-- A system's step replaces the entry that made it (R226). -/
theorem stepAt_next {sys sys' : System} {k : Fin sys.length} (h : System.stepAt sys k = .next sys') :
    ∃ m, (sys.get k).step = .next m ∧ sys' = sys.set k.val m := by
  unfold System.stepAt at h
  split at h
  · next m hm => cases h; exact ⟨m, hm, rfl⟩
  · cases h
  · cases h

/-- Settles O45: the step replaces one entry of the list of instances. -/
theorem instancesDoNotInteract : Obligations.InstancesDoNotInteract := by
  intro sys sys' k h
  obtain ⟨m, hm, rfl⟩ := stepAt_next h
  refine ⟨List.length_set, fun j hj => List.getElem?_set_ne hj.symm, m, ?_, step_state_of_instanceStep hm⟩
  exact List.getElem?_set_self k.isLt

/-! ### The invariant of the machine -/

/-- The invariant, as a statement about the two fields it speaks of. -/
theorem inv_iff {s : State} : s.inv = true ↔ (∀ e ∈ s.sinkLog, e.wellFormed = true) ∧ s.brightness ≤ 15 := by
  simp only [State.inv, Bool.and_eq_true, List.all_eq_true, decide_eq_true_eq]

/-- A command appends whole frames at offset 0 and leaves the brightness (R152, R28). -/
theorem exec_inv {i : Instr} {s t : State} (hinv : s.inv = true) (h : exec i s = .next t) : t.inv = true := by
  obtain ⟨hlog, hbright⟩ := inv_iff.1 hinv
  rw [exec_eq_afterCommand] at h
  cases h
  refine inv_iff.2 ⟨fun e he => ?_, hbright⟩
  rcases List.mem_append.1 he with hold | hnew
  · exact hlog e hold
  · obtain ⟨hoffset, hlength⟩ := framesSent_wellFormed hnew
    simp [SinkEntry.wellFormed, hoffset, hlength]

/-- Settles O35: only a command appends to the log, and only a clamped request sets the brightness. -/
theorem everyStepKeepsTheInvariant : Obligations.EveryStepKeepsTheInvariant := by
  intro table rates s t hinv hstep
  obtain ⟨-, rfl⟩ | ⟨x, rest, -, hcase⟩ := stepWith_cases hstep
  · exact hinv
  obtain ⟨cw, i, -, -, hexec⟩ | ⟨n, -, rfl⟩ | ⟨m, steps, -, -, rfl⟩ | ⟨b, -, rfl⟩ | ⟨r, -, -, rfl⟩ | ⟨-, rfl⟩ := hcase
  · exact exec_inv (s := s.withPending rest) hinv hexec
  · exact hinv
  · exact hinv
  · exact inv_iff.2 ⟨(inv_iff.1 hinv).1, clampBrightness_le b⟩
  · exact hinv
  · exact inv_iff.2 ⟨fun _ he => absurd he List.not_mem_nil, (inv_iff.1 hinv).2⟩

/-- Settles O2: the reset log is empty and the reset brightness is 0. -/
theorem invariantHoldsAtReset : Obligations.InvariantHoldsAtReset :=
  inv_iff.2 ⟨fun _ he => absurd he List.not_mem_nil, Nat.zero_le _⟩

end Sys2Proof.Machine
end

section
/-! The assembly form of the commands (R94). -/

namespace Sys2Proof.Machine

@[simp] theorem colorOfWord_colorWord (k : Option Color) : colorOfWord (colorWord k) = some k := by
  rcases k with _ | k
  · rfl
  · cases k <;> rfl

/-- A row value written as a number reads back as the row value (R94). -/
theorem parseWrrow_coe (r : Fin 8) (v : Row) : parseWrrow (r.val : Int) (v.toNat : Int) = some (.wrrow r v) := by
  have hrange : (0 : Int) ≤ (v.toNat : Int) ∧ (v.toNat : Int) ≤ 0xFFFF := by omega
  simp only [parseWrrow, coordinate_coe, if_pos hrange, BitVec.ofInt_natCast, BitVec.ofNat_toNat, BitVec.setWidth_eq]

/-- Settles O15: each mnemonic selects its own line form, and each operand reads back. -/
theorem assemblyReadsBackCommands : Obligations.AssemblyReadsBackCommands := by
  intro i
  cases i with
  | setpx row col color => simp [printCommand, parseCommand]
  | wrrow r v => simp [printCommand, parseCommand, parseWrrow_coe]
  | clr f => cases f <;> rfl
  | wrdisp => rfl
  | getbuf => rfl

end Sys2Proof.Machine
end

section
/-! The fix-up on whole words, and the scroll window bit by bit. -/

namespace Sys2Proof.Machine

/-- Every bit number of a 32-bit word is a bit of one of its four bytes. -/
theorem exists_byte_bit {j : Nat} (hj : j < 32) : ∃ k i, k < 4 ∧ i < 8 ∧ j = 8 * k + i :=
  ⟨j / 8, j % 8, by omega, by omega, by omega⟩

/-- The bit reversal and the byte swap commute: both orders reverse inside each byte (R181). -/
theorem rev32_bswap32 (w : BitVec 32) : rev32 (bswap32 w) = bswap32 (rev32 w) := by
  refine BitVec.eq_of_getLsbD_eq fun j hj => ?_
  obtain ⟨k, i, hk, hi, rfl⟩ := exists_byte_bit hj
  have hflip : 31 - (8 * k + i) = 8 * (3 - k) + (7 - i) := by omega
  have hback : 3 - (3 - k) = k := by omega
  rw [bswap32_rev32_getLsbD w hk hi, rev32_getLsbD _ hj, hflip, bswap32_getLsbD w (by omega) (by omega), hback]

/-- The worked number of R181: inside each byte, its bits are those of `0x12345678` reversed. -/
theorem bswap32_rev32_example : bswap32 (rev32 0x12345678#32) = 0x482C6A1E#32 := by
  have hbits : ∀ k < 4, ∀ i < 8, (0x12345678#32).getLsbD (8 * k + (7 - i)) = (0x482C6A1E#32).getLsbD (8 * k + i) := by
    decide
  refine BitVec.eq_of_getLsbD_eq fun j hj => ?_
  obtain ⟨k, i, hk, hi, rfl⟩ := exists_byte_bit hj
  rw [bswap32_rev32_getLsbD _ hk hi, hbits k hk i hi]

/-- Settles O47: the bytewise reversal is `bswap32_rev32_getLsbD`, and reversing a byte twice gives it back. -/
theorem fixUpReversesInsideBytes : Obligations.FixUpReversesInsideBytes := by
  refine ⟨fun w k i hk hi => bswap32_rev32_getLsbD w hk hi, rev32_bswap32, fun v => ?_, bswap32_rev32_example⟩
  rw [fix_eq_rev8, fix_eq_rev8]
  exact BitVec.reverse_reverse_eq

/-- The byte mask keeps bits 7..0 and no other. -/
theorem byteMask_getLsbD (j : Nat) : (0xFF#32).getLsbD j = decide (j < 8) := by
  have hmask : 0xFF#32 = (BitVec.allOnes 8).setWidth 32 := rfl
  rw [hmask, BitVec.getLsbD_setWidth, BitVec.getLsbD_allOnes, ← Bool.decide_and]
  exact decide_eq_decide.2 (by omega)

/-- Bit `j` of the window is column `j + col` of the strip of the two rows (R190, R191). -/
theorem win_getLsbD (cur nxt : Byte) (col : Fin 8) {j : Nat} (hj : j < 8) :
    (win cur nxt col).getLsbD j
      = if j + col.val ≤ 7 then cur.getLsbD (j + col.val) else nxt.getLsbD (j + col.val - 8) := by
  rw [win, BitVec.getLsbD_and, byteMask_getLsbD, decide_eq_true hj, Bool.and_true, BitVec.getLsbD_or,
    BitVec.getLsbD_ushiftRight, BitVec.getLsbD_shiftLeft, BitVec.getLsbD_setWidth, BitVec.getLsbD_setWidth,
    Nat.add_comm col.val j]
  split
  · next hin =>
    have hlow : j < 8 - col.val := by omega
    have hword : j + col.val < 32 := by omega
    simp [hlow, hword]
  · next hout =>
    have hhigh : ¬ j < 8 - col.val := by omega
    have hcur : cur.getLsbD (j + col.val) = false := BitVec.getLsbD_of_ge _ _ (by omega)
    have hshift : j - (8 - col.val) = j + col.val - 8 := by omega
    have hword : j + col.val - 8 < 32 := by omega
    have hj' : j < 32 := by omega
    rw [hshift, hcur, decide_eq_false hhigh, decide_eq_true hword, decide_eq_true hj']
    simp

theorem win_getLsbD_of_ge (cur nxt : Byte) (col : Fin 8) {j : Nat} (hj : 8 ≤ j) :
    (win cur nxt col).getLsbD j = false := by
  rw [win, BitVec.getLsbD_and, byteMask_getLsbD, decide_eq_false (Nat.not_lt.2 hj), Bool.and_false]

/-- The window fits 8 bits: its last step is the mask (R190). -/
theorem win_toNat_lt (cur nxt : Byte) (col : Fin 8) : (win cur nxt col).toNat < 256 := by
  rw [win, BitVec.toNat_and]
  exact Nat.and_lt_two_pow _ (by decide : (0xFF#32).toNat < 2 ^ 8)

/-- Settles O48: at shift 0 the columns of the window are those of the current row. -/
theorem scrollWindowIsTheStrip : Obligations.ScrollWindowIsTheStrip := by
  refine ⟨fun cur nxt col j hj => win_getLsbD cur nxt col hj, win_toNat_lt, fun cur nxt => ?_⟩
  refine BitVec.eq_of_getLsbD_eq fun j hj => ?_
  rw [BitVec.getLsbD_setWidth, decide_eq_true hj, Bool.true_and]
  by_cases hcol : j < 8
  · exact (win_getLsbD cur nxt 0 hcol).trans (if_pos (Nat.le_of_lt_succ hcol))
  · rw [win_getLsbD_of_ge cur nxt 0 (Nat.not_lt.1 hcol), BitVec.getLsbD_of_ge cur j (Nat.not_lt.1 hcol)]

end Sys2Proof.Machine
end

section
/-! The host's macros: when they are refused, and what the steps of an expansion are. -/

namespace Sys2Proof.Machine

open Sys2Proof.Spec

/-! ### Glyphs and refusals -/

/-- A character that meets the precondition has its glyph (R179). -/
theorem glyphOf_of_glyphIs {table : GlyphTable} {ch : Nat} {g : Glyph} (h : glyphIs table ch g) :
    glyphOf table ch = .ok g := by
  obtain ⟨hlow, hhigh, hglyph⟩ := h
  have hprintable : printable ch = true := decide_eq_true ⟨hlow, hhigh⟩
  simp only [glyphOf, hprintable, if_true, glyphOffset, hglyph]

/-- A text whose characters meet the precondition has its glyphs, in order (R179). -/
theorem glyphsOf_of_forall₂ {table : GlyphTable} {chars : List Nat} {gs : List Glyph}
    (h : List.Forall₂ (glyphIs table) chars gs) : glyphsOf table chars = .ok gs := by
  induction h with
  | nil => rfl
  | cons hch _ ih => simp only [glyphsOf, glyphOf_of_glyphIs hch, ih]

/-- A character outside the printable range, or with no glyph, is refused (R179). -/
theorem glyphOf_of_bad {table : GlyphTable} {ch : Nat} (h : ¬ (32 ≤ ch ∧ ch ≤ 126) ∨ table (ch - 31) = none) :
    ∃ e, glyphOf table ch = .error e := by
  by_cases hprintable : printable ch = true
  · have hrange : 32 ≤ ch ∧ ch ≤ 126 := of_decide_eq_true hprintable
    have hnone : table (ch - 31) = none := h.resolve_left (not_not.2 hrange)
    exact ⟨.glyphUndefined ch, by simp only [glyphOf, hprintable, if_true, glyphOffset, hnone]⟩
  · exact ⟨.notPrintable ch, by simp only [glyphOf, hprintable]; rfl⟩

/-- A text with a refused character is refused (R179). -/
theorem glyphsOf_of_mem_refused {table : GlyphTable} {ch : Nat} (hbad : ∃ e, glyphOf table ch = .error e)
    {chars : List Nat} (hmem : ch ∈ chars) : ∃ e, glyphsOf table chars = .error e := by
  induction chars with
  | nil => cases hmem
  | cons c rest ih =>
    cases hc : glyphOf table c with
    | error e => exact ⟨e, by simp only [glyphsOf, hc]⟩
    | ok g =>
      have hrest : ch ∈ rest := by
        rcases List.mem_cons.1 hmem with rfl | hrest
        · obtain ⟨e, he⟩ := hbad
          rw [he] at hc
          cases hc
        · exact hrest
      obtain ⟨e, he⟩ := ih hrest
      exact ⟨e, by simp only [glyphsOf, hc, he]⟩

theorem expand_text_negative (table : GlyphTable) (chars : List Nat) {d : Int} (hd : d < 0) :
    (HostMacro.text chars d).expand table = .error (.negativeDuration d) := by
  simp only [HostMacro.expand, if_pos hd]

theorem expand_scroll_negative (table : GlyphTable) (chars : List Nat) {d : Int} (hd : d < 0) :
    (HostMacro.scroll chars d).expand table = .error (.negativeDuration d) := by
  simp only [HostMacro.expand, if_pos hd]

/-- `TEXT` is refused when its text is, whatever its duration. -/
theorem expand_text_refused {table : GlyphTable} {chars : List Nat} (d : Int) {e : Refusal}
    (h : glyphsOf table chars = .error e) : ∃ e', (HostMacro.text chars d).expand table = .error e' := by
  by_cases hd : d < 0
  · exact ⟨_, expand_text_negative table chars hd⟩
  · exact ⟨e, by simp only [HostMacro.expand, if_neg hd, h]⟩

/-- `SCROLL` is refused when its padded text is, whatever its duration. -/
theorem expand_scroll_refused {table : GlyphTable} {chars : List Nat} (d : Int) {e : Refusal}
    (h : glyphsOf table (padText chars) = .error e) : ∃ e', (HostMacro.scroll chars d).expand table = .error e' := by
  by_cases hd : d < 0
  · exact ⟨_, expand_scroll_negative table chars hd⟩
  · exact ⟨e, by simp only [HostMacro.expand, if_neg hd, h]⟩

/-- Settles O53: a bad character makes its text, and the padded text, be refused, and so the whole invocation. -/
theorem badCharactersAreRefused : Obligations.BadCharactersAreRefused := by
  intro table rates s rest ch hbad
  have hglyph := glyphOf_of_bad hbad
  refine ⟨fun hp => ?_, fun chars d hmem => ⟨fun hp => ?_, fun hp => ?_⟩⟩
  · obtain ⟨e, he⟩ := hglyph
    exact ⟨e, stepWith_invoke_refused hp (by simp only [HostMacro.expand, he])⟩
  · obtain ⟨e, he⟩ := glyphsOf_of_mem_refused hglyph hmem
    obtain ⟨e', he'⟩ := expand_text_refused d he
    exact ⟨e', stepWith_invoke_refused hp he'⟩
  · have hpadded : ch ∈ padText chars := by simp [padText, hmem]
    obtain ⟨e, he⟩ := glyphsOf_of_mem_refused hglyph hpadded
    obtain ⟨e', he'⟩ := expand_scroll_refused d he
    exact ⟨e', stepWith_invoke_refused hp he'⟩

/-- Settles O54: the duration is looked at first, and `idiv8` is the quotient by 8. -/
theorem negativeDurationsAreRefused : Obligations.NegativeDurationsAreRefused := by
  refine ⟨fun s chars d rest hd => ⟨fun hp => ?_, fun hp => ?_⟩, fun d => ?_⟩
  · exact stepWith_invoke_refused hp (expand_text_negative _ chars hd)
  · exact stepWith_invoke_refused hp (expand_scroll_negative _ chars hd)
  · simp only [idiv8]
    omega

/-! ### Straight-line steps -/

/-- The steps an expansion is made of: an encoded command, or a hold (R171). -/
def HostStep.IsStraight (h : HostStep) : Prop := (∃ i, h = .command i) ∨ ∃ n, h = .hold n

theorem isStraight_command (i : Instr) : (HostStep.command i).IsStraight := .inl ⟨i, rfl⟩

theorem isStraight_hold (n : Nat) : (HostStep.hold n).IsStraight := .inr ⟨n, rfl⟩

/-- A straight-line step has a meaning: an encoded command decodes (R89). -/
theorem HostStep.IsStraight.admissible {h : HostStep} (hs : h.IsStraight) (table : GlyphTable)
    (rates : List BlinkRate) : h.admissible table rates = true := by
  obtain ⟨i, rfl⟩ | ⟨n, rfl⟩ := hs
  · simp only [HostStep.command, HostStep.admissible, decode_encode]
    rfl
  · rfl

/-- A straight-line step is one machine step. -/
theorem HostStep.IsStraight.cost_eq_one {h : HostStep} (hs : h.IsStraight) (table : GlyphTable) :
    h.cost table = 1 := by
  obtain ⟨i, rfl⟩ | ⟨n, rfl⟩ := hs
  · rfl
  · rfl

theorem glyphSteps_isStraight {g : Glyph} {h : HostStep} (hmem : h ∈ glyphSteps g) : h.IsStraight := by
  obtain ⟨r, -, rfl⟩ := List.mem_map.1 hmem
  exact isStraight_command _

theorem textCycle_isStraight {d : Nat} {g : Glyph} {h : HostStep} (hmem : h ∈ textCycle d g) : h.IsStraight := by
  simp only [textCycle, List.mem_append, List.mem_cons, List.not_mem_nil, or_false] at hmem
  obtain (rfl | hglyph) | rfl | rfl | rfl | rfl := hmem
  · exact isStraight_command _
  · exact glyphSteps_isStraight hglyph
  · exact isStraight_command _
  · exact isStraight_hold _
  · exact isStraight_command _
  · exact isStraight_hold _

theorem scrollStep_isStraight {a b : Glyph} {d : Nat} {col : Fin 8} {h : HostStep}
    (hmem : h ∈ scrollStep a b d col) : h.IsStraight := by
  simp only [scrollStep, scrollRow, List.mem_append, List.mem_flatMap, List.mem_cons, List.not_mem_nil,
    or_false] at hmem
  obtain ⟨r, -, rfl | rfl⟩ | rfl := hmem
  · exact isStraight_command _
  · exact isStraight_command _
  · exact isStraight_hold _

theorem scrollPairs_isStraight {d : Nat} {gs : List Glyph} {h : HostStep} (hmem : h ∈ scrollPairs d gs) :
    h.IsStraight := by
  induction gs using scrollPairs.induct with
  | case1 => cases hmem
  | case2 => cases hmem
  | case3 a b rest ih =>
    rcases List.mem_append.1 hmem with hpair | hrest
    · obtain ⟨col, -, hcol⟩ := List.mem_flatMap.1 hpair
      exact scrollStep_isStraight hcol
    · exact ih hrest

/-- Every step of an expansion is an encoded command or a hold (R171). -/
theorem expand_isStraight {table : GlyphTable} {m : HostMacro} {steps : List HostStep}
    (hm : m.expand table = .ok steps) {h : HostStep} (hmem : h ∈ steps) : h.IsStraight := by
  cases m with
  | glyph ch =>
    simp only [HostMacro.expand] at hm
    split at hm
    · cases hm; exact glyphSteps_isStraight hmem
    · cases hm
  | text chars d =>
    simp only [HostMacro.expand] at hm
    split at hm
    · cases hm
    split at hm
    · cases hm
      obtain ⟨g, -, hg⟩ := List.mem_flatMap.1 hmem
      exact textCycle_isStraight hg
    · cases hm
  | scroll chars d =>
    simp only [HostMacro.expand] at hm
    split at hm
    · cases hm
    split at hm
    · cases hm
      rcases List.mem_append.1 hmem with hpairs | hlast
      · exact scrollPairs_isStraight hpairs
      · obtain rfl := List.mem_singleton.1 hlast
        exact isStraight_command _
    · cases hm

/-! ### Runs that have a meaning -/

/-- Every pending host step has a meaning (R213). -/
def State.PendingAdmissible (table : GlyphTable) (rates : List BlinkRate) (s : State) : Prop :=
  ∀ h ∈ s.pending, h.admissible table rates = true

/-- A step that answers next leaves only host steps with a meaning: the rest, and the expansion of an invocation. -/
theorem stepWith_pendingAdmissible {table : GlyphTable} {rates : List BlinkRate} {s t : State}
    (hs : s.PendingAdmissible table rates) (hstep : stepWith table rates s = .next t) :
    t.PendingAdmissible table rates := by
  obtain ⟨-, rfl⟩ | ⟨x, rest, hp, hcase⟩ := stepWith_cases hstep
  · exact hs
  have hrest : ∀ h ∈ rest, h.admissible table rates = true := fun h hh => hs h (by simp [hp, hh])
  obtain ⟨cw, i, -, -, hexec⟩ | ⟨n, -, rfl⟩ | ⟨m, steps, -, hm, rfl⟩ | ⟨b, -, rfl⟩ | ⟨r, -, -, rfl⟩ | ⟨-, rfl⟩ := hcase
  · obtain ⟨hpending, -⟩ := exec_frame hexec
    rw [State.PendingAdmissible, hpending]
    exact hrest
  · exact hrest
  · intro h hh
    rcases List.mem_append.1 hh with hsteps | hh
    · exact (expand_isStraight hm hsteps).admissible table rates
    · exact hrest h hh
  · exact hrest
  · exact hrest
  · exact hrest

/-- Settles O55: this is `stepWith_pendingAdmissible`. -/
theorem everyStepKeepsPendingAdmissible : Obligations.EveryStepKeepsPendingAdmissible :=
  fun _ _ _ _ hs hstep => stepWith_pendingAdmissible hs hstep

/-- Settles O56: no host step is pending at reset. -/
theorem pendingAdmissibleAtReset : Obligations.PendingAdmissibleAtReset :=
  fun _ _ _ hmem => absurd hmem List.not_mem_nil

theorem runLength_cons (table : GlyphTable) (h : HostStep) (l : List HostStep) :
    runLength table (h :: l) = h.cost table + runLength table l := rfl

theorem runLength_append (table : GlyphTable) (l m : List HostStep) :
    runLength table (l ++ m) = runLength table l + runLength table m := by
  simp only [runLength, List.map_append, List.sum_append]

/-- Straight-line steps take as many machine steps as they are. -/
theorem runLength_of_isStraight (table : GlyphTable) {l : List HostStep} (hl : ∀ h ∈ l, h.IsStraight) :
    runLength table l = l.length := by
  induction l with
  | nil => rfl
  | cons h l ih =>
    rw [runLength_cons, (hl h List.mem_cons_self).cost_eq_one, ih fun x hx => hl x (List.mem_cons_of_mem _ hx),
      List.length_cons, Nat.add_comm]

/-- A host step with a meaning is performed, and leaves a run one machine step shorter. -/
theorem stepWith_progress {table : GlyphTable} {rates : List BlinkRate} {s : State} {h : HostStep}
    {rest : List HostStep} (hp : s.pending = h :: rest) (hadm : h.admissible table rates = true) :
    ∃ t, stepWith table rates s = .next t ∧ runLength table s.pending = runLength table t.pending + 1 := by
  rw [hp, runLength_cons, Nat.add_comm]
  cases h with
  | issue cw =>
    cases hi : decode cw with
    | error e => simp [HostStep.admissible, hi, Except.isOk, Except.toBool] at hadm
    | ok i =>
      obtain ⟨t, ht⟩ := everyCommandCompletes i (s.withPending rest)
      obtain ⟨hpending, -⟩ := exec_frame ht
      exact ⟨t, (stepWith_issue hp hi).trans ht, by rw [hpending]; rfl⟩
  | hold n => exact ⟨_, stepWith_hold hp, rfl⟩
  | invoke m =>
    cases hm : m.expand table with
    | error e => simp [HostStep.admissible, hm, Except.isOk, Except.toBool] at hadm
    | ok steps =>
      refine ⟨_, stepWith_invoke hp hm, ?_⟩
      have hlen := runLength_of_isStraight table fun _ hh => expand_isStraight hm hh
      simp only [State.withPending_pending, runLength_append, hlen, HostStep.cost, hm]
      omega
  | setBrightness b => exact ⟨_, stepWith_of_pending hp, rfl⟩
  | setBlinkRate r =>
    have hr : r ∈ rates := of_decide_eq_true hadm
    exact ⟨_, (blinkRateIsValidated table rates s r rest hp).1 hr, rfl⟩
  | resetInput => exact ⟨_, stepWith_of_pending hp, rfl⟩
  | concurrentIssue a b => cases hadm

/-- A run whose first step answers next goes on from that state. -/
theorem runWith_succ {table : GlyphTable} {rates : List BlinkRate} {s t : State} (k : Nat)
    (h : stepWith table rates s = .next t) : runWith table rates (k + 1) s = runWith table rates k t := by
  simp only [runWith, h]

/-- Settles O37, by induction on the run's length: each step shortens it and keeps every pending step one
with a meaning. -/
theorem everyAdmissibleRunEnds : Obligations.EveryAdmissibleRunEnds := by
  intro table rates s hs
  induction hn : runLength table s.pending generalizing s with
  | zero =>
    refine ⟨s, rfl, ?_⟩
    cases hp : s.pending with
    | nil => rfl
    | cons h rest =>
      obtain ⟨t, -, hlen⟩ := stepWith_progress hp (hs h (by simp [hp]))
      omega
  | succ n ih =>
    cases hp : s.pending with
    | nil => rw [hp] at hn; cases hn
    | cons h rest =>
      obtain ⟨t, ht, hlen⟩ := stepWith_progress hp (hs h (by simp [hp]))
      rw [runWith_succ n ht]
      exact ih t (stepWith_pendingAdmissible hs ht) (by omega)

end Sys2Proof.Machine
end

section
/-! Runs of straight-line steps: what a list of steps makes of a state when the host has it to do first. -/

namespace Sys2Proof.Machine

open Sys2Proof.Spec

/-- A run of `a + b` steps whose first `a` end in `t` goes on from `t`. -/
theorem runWith_add {table : GlyphTable} {rates : List BlinkRate} {a : Nat} (b : Nat) {s t : State}
    (h : runWith table rates a s = .next t) : runWith table rates (a + b) s = runWith table rates b t := by
  induction a generalizing s with
  | zero => cases h; rw [Nat.zero_add]
  | succ a ih =>
    rw [Nat.add_right_comm]
    cases hstep : stepWith table rates s with
    | next u =>
      rw [runWith_succ a hstep] at h
      rw [runWith_succ (a + b) hstep, ih h]
    | fault r => simp [runWith, hstep] at h
    | refused r => simp [runWith, hstep] at h

/-- With `steps` first in what the host has to do, one machine step for each of them leads from `s` to `t`. -/
def Runs (table : GlyphTable) (rates : List BlinkRate) (steps : List HostStep) (s t : State) : Prop :=
  ∀ rest, runWith table rates steps.length (s.withPending (steps ++ rest)) = .next (t.withPending rest)

section Rules

variable {table : GlyphTable} {rates : List BlinkRate} {s t u : State}

theorem Runs.nil : Runs table rates [] s s := fun _ => rfl

theorem Runs.append {l m : List HostStep} (hl : Runs table rates l s t) (hm : Runs table rates m t u) :
    Runs table rates (l ++ m) s u := by
  intro rest
  rw [List.length_append, List.append_assoc, runWith_add _ (hl (m ++ rest))]
  exact hm rest

/-- One host step runs as a machine step does. -/
theorem Runs.singleton {h : HostStep}
    (hstep : ∀ rest, stepWith table rates (s.withPending (h :: rest)) = .next (t.withPending rest)) :
    Runs table rates [h] s t := fun rest => runWith_succ 0 (hstep rest)

/-- An issued command runs as `exec` does, which neither reads nor changes what the host has to do. -/
theorem Runs.command {i : Instr} (h : exec i s = .next t) : Runs table rates [.command i] s t := by
  rw [exec_eq_afterCommand] at h
  cases h
  exact Runs.singleton fun rest => (stepWith_issue rfl (decode_encode i)).trans
    ((exec_clamped i _).trans (exec_eq_afterCommand i _))

theorem Runs.hold (n : Nat) : Runs table rates [.hold n] s (s.recordHold n) :=
  Runs.singleton fun rest => stepWith_hold (s := s.withPending (.hold n :: rest)) rfl

/-- Steps for the eight rows in order run through the states between them. -/
theorem Runs.rows {f : Fin 8 → List HostStep} {state : Nat → State}
    (h : ∀ r : Fin 8, Runs table rates (f r) (state r.val) (state (r.val + 1))) :
    Runs table rates (rowIndices.flatMap f) (state 0) (state 8) :=
  (h 0).append ((h 1).append ((h 2).append ((h 3).append ((h 4).append ((h 5).append ((h 6).append
    ((h 7).append Runs.nil)))))))

/-- Steps for the numbers below `n` in order run through the states between them. -/
theorem Runs.range {f : Nat → List HostStep} {state : Nat → State} {n : Nat}
    (h : ∀ k < n, Runs table rates (f k) (state k) (state (k + 1))) :
    Runs table rates ((List.range n).flatMap f) (state 0) (state n) := by
  induction n with
  | zero => exact Runs.nil
  | succ n ih =>
    rw [List.range_succ, List.flatMap_append, List.flatMap_singleton]
    exact (ih fun k hk => h k (by omega)).append (h n (by omega))

theorem Runs.wrdisp_hold (s : State) (n : Nat) :
    Runs table rates [.command .wrdisp, .hold n] s (s.flush.recordHold n) :=
  (Runs.command (exec_wrdisp s)).append (Runs.hold n)

theorem Runs.clr_hold (s : State) (n : Nat) :
    Runs table rates [.command (.clr true), .hold n] s (s.clearRows.flush.recordHold n) :=
  (Runs.command (exec_clr_true s)).append (Runs.hold n)

/-- An invocation runs as its expansion does, after one machine step (log 9). -/
theorem Runs.invoke {m : HostMacro} {steps rest : List HostStep} (hp : s.pending = .invoke m :: rest)
    (hm : m.expand table = .ok steps) (hrun : Runs table rates steps s t) :
    runWith table rates (steps.length + 1) s = .next (t.withPending rest) := by
  rw [runWith_succ _ (stepWith_invoke hp hm)]
  exact hrun rest

end Rules

/-! ### Storing the eight rows in order -/

/-- The buffer with rows `0 .. j-1` replaced by those of `new`. -/
def rowsUpTo (new : Fin 8 → Row) (old : FrameBuffer) (j : Nat) : FrameBuffer :=
  Vector.ofFn fun q : Fin 8 => if q.val < j then new q else old[q]

theorem rowsUpTo_getElem (new : Fin 8 → Row) (old : FrameBuffer) (j : Nat) {q : Nat} (hq : q < 8) :
    (rowsUpTo new old j)[q] = if q < j then new ⟨q, hq⟩ else old[q] :=
  Vector.getElem_ofFn hq

theorem rowsUpTo_zero (new : Fin 8 → Row) (old : FrameBuffer) : rowsUpTo new old 0 = old :=
  Vector.ext fun _ hq => rowsUpTo_getElem new old 0 hq

theorem rowsUpTo_eight (new : Fin 8 → Row) (old : FrameBuffer) : rowsUpTo new old 8 = Vector.ofFn new :=
  Vector.ext fun _ hq => by rw [rowsUpTo_getElem, if_pos hq, Vector.getElem_ofFn]

/-- Storing row `r` after the rows below it. -/
theorem rowsUpTo_set (new : Fin 8 → Row) (old : FrameBuffer) (r : Fin 8) :
    (rowsUpTo new old r.val).set r (new r) = rowsUpTo new old (r.val + 1) := by
  refine Vector.ext fun q hq => ?_
  rw [Vector.getElem_set, rowsUpTo_getElem, rowsUpTo_getElem]
  split
  · next heq => subst heq; rw [if_pos (Nat.lt_succ_self _)]
  · next hne =>
    have hlt : q < r.val + 1 ↔ q < r.val := by omega
    simp only [hlt]

/-! ### `GLYPH` -/

/-- The fixed-up row of a glyph, in the green plane (R182, R183). -/
def glyphRow (g : Glyph) (r : Fin 8) : Row := (g[r].reverse).setWidth 16

/-- `GLYPH` stores the bit-reversed glyph rows (R180, R182). -/
theorem glyphSteps_eq (g : Glyph) : glyphSteps g = rowIndices.map fun r => .issue (encode (.wrrow r (glyphRow g r))) := by
  simp only [glyphSteps, fix_eq_rev8]
  rfl

theorem glyphSteps_runs (table : GlyphTable) (rates : List BlinkRate) (g : Glyph) (s : State) :
    Runs table rates (glyphSteps g) s { s with fb := glyphBuffer g } := by
  have hrun := Runs.rows (table := table) (rates := rates) (f := fun r => [.command (.wrrow r (glyphRow g r))])
    (state := fun j => { s with fb := rowsUpTo (glyphRow g) s.fb j }) fun r => by
      refine Runs.command ?_
      rw [exec_wrrow, State.writeRow, rowsUpTo_set]
  rw [rowsUpTo_zero, rowsUpTo_eight] at hrun
  rw [glyphSteps_eq, List.map_eq_flatMap]
  exact hrun

theorem expand_glyph {table : GlyphTable} {ch : Nat} {g : Glyph} (h : glyphIs table ch g) :
    (HostMacro.glyph ch).expand table = .ok (glyphSteps g) := by
  simp only [HostMacro.expand, glyphOf_of_glyphIs h]

/-- Settles O50: `GLYPH` expands to the stores of the eight rows and runs as they do. -/
theorem glyphWritesTheFixedUpRows : Obligations.GlyphWritesTheFixedUpRows := by
  intro table rates s ch g rest hg hp
  refine ⟨(expand_glyph hg).trans (congrArg Except.ok (glyphSteps_eq g)), ?_⟩
  exact Runs.invoke hp (expand_glyph hg) (glyphSteps_runs table rates g s)

/-! ### `TEXT` -/

theorem textCycle_eq (d : Nat) (g : Glyph) : textCycle d g = textCycleSteps d g := by
  rw [textCycle, glyphSteps_eq]
  rfl

/-- The state after the cycles of `TEXT` over these glyphs (R186). -/
def textState (d : Nat) (gs : List Glyph) (s : State) : State :=
  { s with
    fb := if gs = [] then s.fb else zeroBuffer
    sinkLog := s.sinkLog ++ gs.flatMap fun g => [⟨0, frameBytes (glyphBuffer g)⟩, ⟨0, zeroFrame⟩]
    holdTrace := s.holdTrace ++ gs.flatMap fun _ => [d, 50] }

theorem textState_nil (d : Nat) (s : State) : textState d [] s = s := by
  simp [textState]

/-- The cycle of the first glyph leaves the state in which the other cycles begin. -/
theorem textState_cons (d : Nat) (g : Glyph) (gs : List Glyph) (s : State) :
    textState d gs (textState d [g] s) = textState d (g :: gs) s := by
  simp [textState]

/-- One cycle of `TEXT`: the glyph's frame, then the frame of the cleared buffer (R186, R187). -/
theorem textCycle_runs (table : GlyphTable) (rates : List BlinkRate) (d : Nat) (g : Glyph) (s : State) :
    Runs table rates (textCycle d g) s (textState d [g] s) := by
  have hstored : Runs table rates ([.command (.clr false)] ++ glyphSteps g) s { s with fb := glyphBuffer g } :=
    (Runs.command (exec_clr_false s)).append (glyphSteps_runs table rates g s.clearRows)
  have hend : textState d [g] s
      = ((State.flush { s with fb := glyphBuffer g }).recordHold d).clearRows.flush.recordHold blankHold := by
    simp [textState, State.flush, State.sinkWrite, State.recordHold, State.clearRows, frame_eq_frameBytes,
      ← frame_zeroBuffer, blankHold, sinkOffset]
  rw [hend]
  exact hstored.append ((Runs.wrdisp_hold _ d).append (Runs.clr_hold _ blankHold))

theorem textSteps_runs (table : GlyphTable) (rates : List BlinkRate) (d : Nat) (gs : List Glyph) (s : State) :
    Runs table rates (textSteps gs d) s (textState d gs s) := by
  induction gs generalizing s with
  | nil => rw [textState_nil]; exact Runs.nil
  | cons g gs ih =>
    rw [← textState_cons]
    exact (textCycle_runs table rates d g s).append (ih (textState d [g] s))

theorem expand_text {table : GlyphTable} {chars : List Nat} {gs : List Glyph}
    (h : List.Forall₂ (glyphIs table) chars gs) (d : Nat) :
    (HostMacro.text chars (d : Int)).expand table = .ok (textSteps gs d) := by
  have hd : ¬ (d : Int) < 0 := by omega
  simp only [HostMacro.expand, if_neg hd, glyphsOf_of_forall₂ h, Int.toNat_natCast]

theorem textSteps_length (gs : List Glyph) (d : Nat) : (textSteps gs d).length = 13 * gs.length := by
  induction gs with
  | nil => rfl
  | cons g gs ih =>
    rw [textSteps, List.flatMap_cons, List.length_append, ← textSteps, ih, List.length_cons, Nat.mul_succ, Nat.add_comm]
    rfl

/-- Settles O51: `TEXT` expands to its cycles and runs as they do, one after the other. -/
theorem textShowsEachGlyphThenBlank : Obligations.TextShowsEachGlyphThenBlank := by
  intro table rates s chars gs d rest hgs hp
  have hsteps : textSteps gs d = gs.flatMap (textCycleSteps d) := by
    simp only [textSteps, funext (textCycle_eq d)]
  refine ⟨(expand_text hgs d).trans (congrArg Except.ok hsteps), ?_⟩
  have hrun := Runs.invoke hp (expand_text hgs d) (textSteps_runs table rates d gs s)
  have hempty : gs = [] ↔ chars = [] := by
    rw [← List.length_eq_zero_iff, ← List.length_eq_zero_iff, hgs.length_eq]
  rw [textSteps_length, ← hgs.length_eq] at hrun
  rw [hrun]
  simp only [textState, hempty]
  rfl

end Sys2Proof.Machine
end

section
/-! `SCROLL`: its loops as one sequence of steps, and the buffer and the frames after each of them. -/

namespace Sys2Proof.Machine

open Sys2Proof.Spec

/-! ### The window of a step -/

/-- A zero-extended byte keeps its bits, and those above are zero. -/
theorem zeroExtend_getLsbD (x : Byte) {w : Nat} (hw : 8 ≤ w) (j : Nat) : (x.setWidth w).getLsbD j = x.getLsbD j := by
  rw [BitVec.getLsbD_setWidth]
  by_cases hj : j < 8
  · rw [decide_eq_true (Nat.lt_of_lt_of_le hj hw), Bool.true_and]
  · rw [BitVec.getLsbD_of_ge x j (Nat.not_lt.1 hj), Bool.and_false]

/-- The 16-bit form of the window is the model's 32-bit one (R190). -/
theorem win_setWidth (cur nxt : Byte) (col : Fin 8) :
    (cur.setWidth 16 >>> col.val ||| nxt.setWidth 16 <<< (8 - col.val)) &&& 0xFF#16 = (win cur nxt col).setWidth 16 := by
  have hmask : 0xFF#16 = (0xFF#32).setWidth 16 := rfl
  refine BitVec.eq_of_getLsbD_eq fun j hj => ?_
  have hj' : j < 32 := by omega
  rw [win, hmask, BitVec.setWidth_and, BitVec.getLsbD_and, BitVec.getLsbD_and, BitVec.getLsbD_setWidth (x := _ ||| _)]
  simp only [BitVec.getLsbD_or, BitVec.getLsbD_ushiftRight, BitVec.getLsbD_shiftLeft,
    zeroExtend_getLsbD _ (by decide : 8 ≤ 16), zeroExtend_getLsbD _ (by decide : 8 ≤ 32), hj, hj', decide_true,
    Bool.true_and]

/-- The window of the first pair is the model's, of the fixed-up rows of its two glyphs. -/
theorem scrollWindow_head (a b : Glyph) (rest : List Glyph) (col q : Fin 8) :
    scrollWindow (a :: b :: rest) col.val q = (win (fix a[q]) (fix b[q]) col).setWidth 16 := by
  have hpair : col.val / 8 = 0 := by omega
  have hshift : col.val % 8 = col.val := by omega
  rw [fix_eq_rev8, fix_eq_rev8, ← win_setWidth]
  simp only [scrollWindow, hpair, hshift]
  rfl

/-- A later pair's windows are those of the text without its first glyph. -/
theorem scrollWindow_cons (a : Glyph) (gs : List Glyph) (t : Nat) (q : Fin 8) :
    scrollWindow (a :: gs) (8 + t) q = scrollWindow gs t q := by
  have hpair : (8 + t) / 8 = t / 8 + 1 := by omega
  have hshift : (8 + t) % 8 = t % 8 := by omega
  simp only [scrollWindow, hpair, hshift, List.getD_cons_succ]

/-! ### The loops as one sequence -/

/-- The steps of step `t` of a scroll (R192). -/
def scrollStepAt (gs : List Glyph) (d t : Nat) : List HostStep :=
  rowIndices.flatMap (fun r => [.command (.wrrow r (scrollWindow gs t r)), .command .wrdisp]) ++ [.hold (d / 8)]

theorem scrollStepAt_head (a b : Glyph) (rest : List Glyph) (d : Nat) (col : Fin 8) :
    scrollStepAt (a :: b :: rest) d col.val = scrollStep a b d col := by
  simp only [scrollStepAt, scrollStep, scrollWindow_head]
  rfl

theorem scrollStepAt_cons (a : Glyph) (gs : List Glyph) (d t : Nat) :
    scrollStepAt (a :: gs) d (8 + t) = scrollStepAt gs d t := by
  simp only [scrollStepAt, scrollWindow_cons]

/-- The first pair's steps are those numbered 0 to 7. -/
theorem scrollPair_eq (a b : Glyph) (rest : List Glyph) (d : Nat) :
    scrollPair a b d = (List.range 8).flatMap (scrollStepAt (a :: b :: rest) d) := by
  have hrange : List.range 8 = scrollShifts.map Fin.val := rfl
  rw [hrange, List.flatMap_map, scrollPair]
  simp only [scrollStepAt_head]

/-- The loops over pairs and shifts run through the steps in order of their numbers (R192). -/
theorem scrollPairs_eq (d : Nat) (gs : List Glyph) :
    scrollPairs d gs = (List.range (8 * (gs.length - 1))).flatMap (scrollStepAt gs d) := by
  induction gs using scrollPairs.induct with
  | case1 => rfl
  | case2 => rfl
  | case3 a b rest ih =>
    have hlen : 8 * ((a :: b :: rest).length - 1) = 8 + 8 * ((b :: rest).length - 1) := by
      simp only [List.length_cons]
      omega
    rw [scrollPairs, ih, hlen, List.range_add, List.flatMap_append, ← scrollPair_eq, List.flatMap_map]
    simp only [scrollStepAt_cons]

theorem scrollSteps_eq {gs : List Glyph} {n : Nat} (hlen : gs.length = n + 2) (d : Nat) :
    scrollSteps gs d = scrollAllSteps gs n d := by
  have hpairs : gs.length - 1 = n + 1 := by omega
  rw [scrollSteps, scrollPairs_eq, hpairs]
  rfl

/-! ### Running the steps -/

/-- The buffer in which step `t` of a scroll begins. -/
def scrollRowsBefore (start : FrameBuffer) (gs : List Glyph) (t : Nat) : FrameBuffer :=
  if t = 0 then start else Vector.ofFn (scrollWindow gs (t - 1))

/-- The state of a scroll in step `t`, with the first `j` rows of the step stored and flushed. -/
def scrollState (s : State) (gs : List Glyph) (d t j : Nat) : State :=
  { s with
    fb := rowsUpTo (scrollWindow gs t) (scrollRowsBefore s.fb gs t) j
    sinkLog := s.sinkLog ++ (List.range (8 * t + j)).map fun m => ⟨0, frameBytes (scrollBuffer s.fb gs m)⟩
    holdTrace := s.holdTrace ++ List.replicate t (d / 8) }

/-- The flush of row `r` in step `t` is the scroll's flush number `8t + r` (R194). -/
theorem scrollBuffer_eq (start : FrameBuffer) (gs : List Glyph) (t : Nat) (r : Fin 8) :
    scrollBuffer start gs (8 * t + r.val) = rowsUpTo (scrollWindow gs t) (scrollRowsBefore start gs t) (r.val + 1) := by
  have hstep : (8 * t + r.val) / 8 = t := by omega
  have hrow : (8 * t + r.val) % 8 = r.val := by omega
  refine Vector.ext fun q hq => ?_
  rw [rowsUpTo_getElem]
  simp only [scrollBuffer, Vector.getElem_ofFn, hstep, hrow, Nat.lt_succ_iff, scrollRowsBefore]
  split
  · rfl
  · split
    · rfl
    · rw [Vector.getElem_ofFn]

theorem scrollRow_runs (table : GlyphTable) (rates : List BlinkRate) (s : State) (gs : List Glyph) (d t : Nat) (r : Fin 8) :
    Runs table rates [.command (.wrrow r (scrollWindow gs t r)), .command .wrdisp]
      (scrollState s gs d t r.val) (scrollState s gs d t (r.val + 1)) := by
  have hend : ((scrollState s gs d t r.val).writeRow r (scrollWindow gs t r)).flush = scrollState s gs d t (r.val + 1) := by
    simp only [scrollState, State.writeRow, State.flush, State.sinkWrite, rowsUpTo_set, frame_eq_frameBytes,
      ← Nat.add_assoc, List.range_succ, List.map_append, List.map_singleton, scrollBuffer_eq, List.append_assoc, sinkOffset]
  rw [← hend]
  exact (Runs.command (exec_wrrow _ _ _)).append (Runs.command (exec_wrdisp _))

/-- A step ends as the next begins: its hold comes after its eight rows (R192, R196). -/
theorem scrollStepAt_runs (table : GlyphTable) (rates : List BlinkRate) (s : State) (gs : List Glyph) (d t : Nat) :
    Runs table rates (scrollStepAt gs d t) (scrollState s gs d t 0) (scrollState s gs d (t + 1) 0) := by
  have hend : (scrollState s gs d t 8).recordHold (d / 8) = scrollState s gs d (t + 1) 0 := by
    have hbefore : scrollRowsBefore s.fb gs (t + 1) = Vector.ofFn (scrollWindow gs t) := rfl
    simp only [scrollState, State.recordHold, rowsUpTo_eight, rowsUpTo_zero, hbefore, Nat.mul_succ, Nat.add_zero,
      List.replicate_succ', List.append_assoc]
  rw [← hend]
  exact (Runs.rows (scrollRow_runs table rates s gs d t)).append (Runs.hold (d / 8))

theorem scrollState_zero (s : State) (gs : List Glyph) (d : Nat) : scrollState s gs d 0 0 = s := by
  simp [scrollState, rowsUpTo_zero, scrollRowsBefore]

theorem scrollAllSteps_runs (table : GlyphTable) (rates : List BlinkRate) (s : State) (gs : List Glyph) (n d : Nat) :
    Runs table rates (scrollAllSteps gs n d) s (scrollState s gs d (8 * (n + 1)) 0).clearRows := by
  have hloops := Runs.range (n := 8 * (n + 1)) (state := fun t => scrollState s gs d t 0)
    fun t _ => scrollStepAt_runs table rates s gs d t
  rw [scrollState_zero] at hloops
  exact hloops.append (Runs.command (exec_clr_false _))

theorem scrollAllSteps_length (gs : List Glyph) (n d : Nat) : (scrollAllSteps gs n d).length = 136 * (n + 1) + 1 := by
  have hstep (t : Nat) : (scrollStepAt gs d t).length = 17 := rfl
  have hsteps : scrollAllSteps gs n d
      = (List.range (8 * (n + 1))).flatMap (scrollStepAt gs d) ++ [.command (.clr false)] := rfl
  rw [hsteps, List.length_append, List.length_flatMap]
  simp only [hstep, List.map_const', List.sum_replicate, List.length_range, smul_eq_mul, List.length_singleton]
  omega

theorem expand_scroll {table : GlyphTable} {chars : List Nat} {gs : List Glyph}
    (h : List.Forall₂ (glyphIs table) ([32] ++ chars ++ [32]) gs) (d : Nat) :
    (HostMacro.scroll chars (d : Int)).expand table = .ok (scrollAllSteps gs chars.length d) := by
  have hd : ¬ (d : Int) < 0 := by omega
  have hglyphs : glyphsOf table (padText chars) = .ok gs := glyphsOf_of_forall₂ h
  have hlen : gs.length = chars.length + 2 := by
    rw [← h.length_eq]
    simp
  simp only [HostMacro.expand, if_neg hd, hglyphs, Int.toNat_natCast, scrollSteps_eq hlen]

/-- Settles O52: the loops run step by step, and the last `CLR 0` clears the buffer without a flush. -/
theorem scrollSendsEveryIntermediateFrame : Obligations.ScrollSendsEveryIntermediateFrame := by
  intro table rates s chars gs d rest hgs hp
  have hexpand := expand_scroll hgs d
  refine ⟨hexpand, ?_⟩
  have hrun := Runs.invoke hp hexpand (scrollAllSteps_runs table rates s gs chars.length d)
  rw [scrollAllSteps_length] at hrun
  rw [hrun]
  have hframes : 8 * (8 * (chars.length + 1)) + 0 = 64 * (chars.length + 1) := by omega
  simp only [scrollState, hframes]
  rfl

end Sys2Proof.Machine
end
